-- ==== Sys2Proof/Word.lean ====
section
/-! DEFINITION. The word and byte types (00_scope.md R8). Word addition is `BitVec` addition, so it wraps
modulo 2^32 (R9, R101), and no operation traps. -/

namespace Sys2Proof

/-- A 32-bit unsigned word (R8). -/
abbrev Word := BitVec 32

/-- An 8-bit unsigned byte (R8). -/
abbrev Byte := BitVec 8

end Sys2Proof
end

