-- ==== Sys2Proof/Config.lean ====
section
/-! DEFINITION. The implementation parameters of 00_scope.md R7, under the spec's names. The widths 32 (bus data),
8 (bus offset), 64 (counter) and 16 (rounds) and the sizes 64 (DATA, OUT, block) stand in the types of State.
LATENCY, the one OPEN entry of R7, is not a number here: it is how many host turns stand before the engine's turn in
`State.turns`, so every finite latency is allowed (log entry 1). BASE does not occur: every access is by offset
(20_memory.md R50, log entry 7). The model has no free value: the spec leaves no result of a command open. -/

namespace Sys2Proof.Config

/-- `KEY_BYTES`: the only legal KLEN of SC_INIT (R7, R84). -/
abbrev keyBytes : Nat := 32

/-- `NONCE_BYTES`: the only legal NLEN of SC_INIT (R7, R84). -/
abbrev nonceBytes : Nat := 8

/-- `ROUNDS_RESET` (R7, 92_eei_decisions.md D17). -/
abbrev roundsReset : Nat := 20

/-- `MAC_BLOCK`: the HMAC block size B (R7, R150). -/
abbrev macBlock : Nat := 64

/-- `LEN_MAX`: the largest legal LEN operand (R7, 92_eei_decisions.md D42). -/
abbrev lenMax : Nat := 64

/-- `SHA_MAX_BYTES`: the longest message SHA-256 accepts, in bytes (R7, R190). -/
abbrev shaMaxBytes : Nat := 2 ^ 61 - 1

end Sys2Proof.Config
end

