-- ==== Sys2Proof/Machine/Bytes.lean ====
section
/-! DEFINITION. Byte sequences (00_scope.md R10), the little-endian conversions of Salsa20 and of the register window
(20_memory.md R63, R56) and the big-endian conversions of SHA-256 (42_sha256.md R180). A byte sequence is a list. The
readers are total: past the end of the sequence they read zero, which no command reaches (log entry 8). -/

namespace Sys2Proof.Machine

/-- `le32(s, i)`: the word read from bytes i to i+3, least significant first (20_memory.md R63). -/
def le32 (s : List Byte) (i : Nat) : Word :=
  s.getD (i + 3) 0 ++ s.getD (i + 2) 0 ++ s.getD (i + 1) 0 ++ s.getD i 0

/-- `le32bytes(w)` (20_memory.md R63). -/
def le32bytes (w : Word) : List Byte :=
  [w.extractLsb' 0 8, w.extractLsb' 8 8, w.extractLsb' 16 8, w.extractLsb' 24 8]

/-- `be32(s, i)`: the word read from bytes i to i+3, most significant first (42_sha256.md R180). -/
def be32 (s : List Byte) (i : Nat) : Word :=
  s.getD i 0 ++ s.getD (i + 1) 0 ++ s.getD (i + 2) 0 ++ s.getD (i + 3) 0

/-- `be32bytes(w)` (42_sha256.md R180). -/
def be32bytes (w : Word) : List Byte :=
  [w.extractLsb' 24 8, w.extractLsb' 16 8, w.extractLsb' 8 8, w.extractLsb' 0 8]

/-- `be64bytes(v)`: the 8 bytes of a u64, most significant first (42_sha256.md R180). -/
def be64bytes (v : BitVec 64) : List Byte :=
  be32bytes (v.extractLsb' 32 32) ++ be32bytes (v.extractLsb' 0 32)

/-- `zeros(n)` (00_scope.md R10). -/
def zeros (n : Nat) : List Byte := List.replicate n 0

/-- `s[a..a+n)` (00_scope.md R10). -/
def slice (s : List Byte) (a n : Nat) : List Byte := (s.drop a).take n

/-- A sequence of at most 64 bytes, padded on the right with zero bytes to 64: the form in which OUT takes a result
(10_state.md R42) and in which a key becomes MC.kpad (41_hmac.md R151). -/
def block64 (s : List Byte) : Vector Byte 64 :=
  ⟨((s ++ zeros 64).take 64).toArray, by simp [zeros]⟩

end Sys2Proof.Machine
end

