-- ==== Sys2Proof/Machine/Sha256.lean ====
section
/-! DEFINITION. SHA-256 as 42_sha256.md R180 to R190 gives it, and its context (10_state.md R33). -/

namespace Sys2Proof.Machine

/-- A SHA-256 context `(H, buf, cnt)` (10_state.md R33). -/
structure ShaContext where
  /-- The chaining value `H[0..7]`. -/
  H : Vector Word 8
  /-- The bytes absorbed since the last compression. -/
  buf : List Byte
  /-- The number of bytes absorbed since initialisation. -/
  cnt : Nat
  deriving DecidableEq, Repr

/-- A row of eight words as R181 and R182 print it, read as one number: its first word is the most significant. -/
abbrev ShaRow := BitVec 256

/-- Word j of a row, counted from the left. -/
def rowWord (row : ShaRow) (j : Nat) : Word := row.extractLsb' (32 * (7 - j)) 32

/-- The eight words of a row, in the order printed. -/
def rowWords (row : ShaRow) : Vector Word 8 :=
  #v[rowWord row 0, rowWord row 1, rowWord row 2, rowWord row 3,
     rowWord row 4, rowWord row 5, rowWord row 6, rowWord row 7]

/-- The initial chaining value H0, the one row of R181. -/
def shaH0 : Vector Word 8 := rowWords 0x6a09e667_bb67ae85_3c6ef372_a54ff53a_510e527f_9b05688c_1f83d9ab_5be0cd19

/-- The eight rows of R182's table. -/
def shaKRows : List ShaRow :=
  [0x428a2f98_71374491_b5c0fbcf_e9b5dba5_3956c25b_59f111f1_923f82a4_ab1c5ed5,
   0xd807aa98_12835b01_243185be_550c7dc3_72be5d74_80deb1fe_9bdc06a7_c19bf174,
   0xe49b69c1_efbe4786_0fc19dc6_240ca1cc_2de92c6f_4a7484aa_5cb0a9dc_76f988da,
   0x983e5152_a831c66d_b00327c8_bf597fc7_c6e00bf3_d5a79147_06ca6351_14292967,
   0x27b70a85_2e1b2138_4d2c6dfc_53380d13_650a7354_766a0abb_81c2c92e_92722c85,
   0xa2bfe8a1_a81a664b_c24b8b70_c76c51a3_d192e819_d6990624_f40e3585_106aa070,
   0x19a4c116_1e376c08_2748774c_34b0bcb5_391c0cb3_4ed8aa4a_5b9cca4f_682e6ff3,
   0x748f82ee_78a5636f_84c87814_8cc70208_90befffa_a4506ceb_bef9a3f7_c67178f2]

/-- The round constants K[0..63], row by row (R182). -/
def shaK : List Word := shaKRows.flatMap fun row => (rowWords row).toList

/-- `rotr32(x, n)` for n in 1..31 (R183). -/
def rotr32 (x : Word) (n : Nat) : Word := (x >>> n) ||| (x <<< (32 - n))

/-- `Ch` (R183). -/
def shaCh (x y z : Word) : Word := (x &&& y) ^^^ (~~~x &&& z)

/-- `Maj` (R183). -/
def shaMaj (x y z : Word) : Word := (x &&& y) ^^^ (x &&& z) ^^^ (y &&& z)

/-- `Σ0` (R183). -/
def bigSigma0 (x : Word) : Word := rotr32 x 2 ^^^ rotr32 x 13 ^^^ rotr32 x 22

/-- `Σ1` (R183). -/
def bigSigma1 (x : Word) : Word := rotr32 x 6 ^^^ rotr32 x 11 ^^^ rotr32 x 25

/-- `σ0` (R183). -/
def smallSigma0 (x : Word) : Word := rotr32 x 7 ^^^ rotr32 x 18 ^^^ (x >>> 3)

/-- `σ1` (R183). -/
def smallSigma1 (x : Word) : Word := rotr32 x 17 ^^^ rotr32 x 19 ^^^ (x >>> 10)

/-- One more word of the schedule: with t words so far, `W[t]` from `W[t-2]`, `W[t-7]`, `W[t-15]`, `W[t-16]` (R184). -/
def scheduleWord (w : List Word) : List Word :=
  w ++ [smallSigma1 (w.getD (w.length - 2) 0) + w.getD (w.length - 7) 0
        + smallSigma0 (w.getD (w.length - 15) 0) + w.getD (w.length - 16) 0]

/-- The message schedule `W[0..63]` of a 64-byte block (R184). -/
def schedule (blk : List Byte) : List Word :=
  scheduleWord^[48] ((List.range 16).map fun t => be32 blk (4 * t))

/-- The working variables a to h of R185. -/
structure ShaWork where
  (a b c d e f g h : Word)

/-- One step of R185's loop, with K[t] and W[t]. -/
def shaRound (w : ShaWork) (kw : Word × Word) : ShaWork :=
  let t1 := w.h + bigSigma1 w.e + shaCh w.e w.f w.g + kw.1 + kw.2
  let t2 := bigSigma0 w.a + shaMaj w.a w.b w.c
  { a := t1 + t2, b := w.a, c := w.b, d := w.c, e := w.d + t1, f := w.e, g := w.f, h := w.g }

/-- `compress(H, blk)` (R185). -/
def compress (H : Vector Word 8) (blk : List Byte) : Vector Word 8 :=
  let r := (shaK.zip (schedule blk)).foldl shaRound
    { a := H[0], b := H[1], c := H[2], d := H[3], e := H[4], f := H[5], g := H[6], h := H[7] }
  Vector.zipWith (· + ·) H #v[r.a, r.b, r.c, r.d, r.e, r.f, r.g, r.h]

/-- `SHA256_INIT` (R186). -/
def shaInit : ShaContext := { H := shaH0, buf := [], cnt := 0 }

/-- `absorb` of one byte: the body of R187's loop. -/
def absorbByte (c : ShaContext) (x : Byte) : ShaContext :=
  if c.buf.length + 1 = 64 then { H := compress c.H (c.buf ++ [x]), buf := [], cnt := c.cnt + 1 }
  else { H := c.H, buf := c.buf ++ [x], cnt := c.cnt + 1 }

/-- `absorb(ctx, s)` (R187). -/
def absorb (c : ShaContext) (s : List Byte) : ShaContext := s.foldl absorbByte c

/-- The padding p of R188 for a message of cnt bytes: `0x80`, then `(55 - cnt) mod 64` zero bytes (the non-negative
remainder, written `(119 - cnt mod 64) mod 64` on natural numbers, log entry 15), then the bit length in 8 bytes. -/
def shaPad (cnt : Nat) : List Byte :=
  0x80 :: (zeros ((119 - cnt % 64) % 64) ++ be64bytes (BitVec.ofNat 64 (8 * cnt)))

/-- `sha256final(ctx)` (R188). -/
def sha256final (c : ShaContext) : List Byte := (absorb c (shaPad c.cnt)).H.toList.flatMap be32bytes

/-- `SHA256(m)` (R189). -/
def sha256 (m : List Byte) : List Byte := sha256final (absorb shaInit m)

end Sys2Proof.Machine
end

