-- ==== Sys2Proof/Syntax.lean ====
section
/-! DEFINITION. The sixteen commands of CORE, one constructor for each row of spec/opcode_table.json
(30_encoding.md R87). Operands are the numbers that R86 reads from the command word (log entry 11); byte operands are not part of
a command (R80), they stand in DATA. -/

namespace Sys2Proof

/-- A command (30_encoding.md R87). -/
inductive Instr where
  /-- `SC_CONFIG rounds`, format R (R85). -/
  | scConfig (rounds : Nat)
  /-- `SC_INIT klen, nlen`, format K (R84). -/
  | scInit (klen nlen : Nat)
  /-- `SC_GET_BLOCK`, format N (R82). -/
  | scGetBlock
  /-- `SC_GET_NEXT_BLOCK`, format N. -/
  | scGetNextBlock
  /-- `SC_GET_KEY`, format N. -/
  | scGetKey
  /-- `SC_GET_NONCE`, format N. -/
  | scGetNonce
  /-- `SC_RESET`, format N. -/
  | scReset
  /-- `MAC_KEY_APPEND len`, format L (R83). -/
  | macKeyAppend (len : Nat)
  /-- `MAC_KEY_COMMIT`, format N. -/
  | macKeyCommit
  /-- `MAC_UPDATE len`, format L. -/
  | macUpdate (len : Nat)
  /-- `MAC_FINALIZE`, format N. -/
  | macFinalize
  /-- `MAC_FINALIZE_DATA len`, format L. -/
  | macFinalizeData (len : Nat)
  /-- `MAC_RESET`, format N. -/
  | macReset
  /-- `HASH_RESET`, format N. -/
  | hashReset
  /-- `HASH_UPDATE len`, format L. -/
  | hashUpdate (len : Nat)
  /-- `HASH_FINAL`, format N. -/
  | hashFinal
  deriving DecidableEq, Repr

end Sys2Proof
end

