-- ==== Sys2Proof/Machine/State.lean ====
section
/-! DEFINITION. The state of CORE: the record `(REG, SC, MC, HS, ENG, FAULT)` of 10_state.md R21, its reset value
(70_reset_and_hazards.md R250), and the ways a step can stop. `⊥` (00_scope.md R13) is the absence of a value: `none`. -/

namespace Sys2Proof.Machine

/-- The error codes of STATUS.ERRCODE (60_exceptions.md R224). The reserved values 0x09 to 0xFF have no name, so the
model cannot report one (93_implementation_defined.md U14). -/
inductive ErrCode where
  /-- `OK`, 0x00. -/
  | ok
  /-- `E_ILLEGAL_CMD`, 0x01. -/
  | illegalCmd
  /-- `E_LEN`, 0x02. -/
  | len
  /-- `E_ROUNDS`, 0x03. -/
  | rounds
  /-- `E_KEY_LEN`, 0x04. -/
  | keyLen
  /-- `E_NONCE_LEN`, 0x05. -/
  | nonceLen
  /-- `E_NOT_INIT`, 0x06. -/
  | notInit
  /-- `E_MISUSE`, 0x07. -/
  | misuse
  /-- `E_MSG_TOO_LONG`, 0x08. -/
  | msgTooLong
  deriving DecidableEq, Repr

/-- `MC.phase` (10_state.md R28). -/
inductive MacPhase where
  /-- No key has been committed. -/
  | unkeyed
  /-- The source's state Ready. -/
  | ready
  /-- The source's state Finalized. -/
  | finalized
  deriving DecidableEq, Repr

/-- The stream cipher unit SC (10_state.md R22 to R26). -/
structure CipherUnit where
  /-- `SC.rounds` (R22). -/
  rounds : BitVec 16
  /-- `SC.keyed` (R23). -/
  keyed : Bool
  /-- `SC.state[0..15]` (R24, R25); `none` is `⊥` in every word. -/
  state : Option (Vector Word 16)
  /-- `SC.blockCounter` (R26). -/
  blockCounter : BitVec 64
  deriving DecidableEq, Repr

/-- The MAC unit MC (10_state.md R28 to R31). -/
structure MacUnit where
  /-- `MC.phase` (R28). -/
  phase : MacPhase
  /-- `MC.kpad` (R29). -/
  kpad : Option (Vector Byte 64)
  /-- `MC.ictx` (R30). -/
  ictx : Option ShaContext
  /-- `MC.ks`, the key staging sequence, held whole (R31; log entry 15). -/
  ks : List Byte
  deriving DecidableEq, Repr

/-- The hash unit HS (10_state.md R32). -/
structure HashUnit where
  /-- `HS.hctx` (R32). -/
  hctx : ShaContext
  deriving DecidableEq, Repr

/-- `FAULT`, the set of model fault reasons (10_state.md R44, 60_exceptions.md R226): which of the two it holds. -/
structure FaultSet where
  /-- `F_HOST_HAZARD` is in the set. -/
  hostHazard : Bool
  /-- `F_BUS_ACCESS` is in the set. -/
  busAccess : Bool
  deriving DecidableEq, Repr

/-- The registers of the window (20_memory.md R51). -/
inductive Reg where
  /-- CMD, offset 0x00. -/
  | cmd
  /-- STATUS, offset 0x04. -/
  | status
  /-- ROUNDS, offset 0x08. -/
  | rounds
  /-- CTR_LO, offset 0x10. -/
  | ctrLo
  /-- CTR_HI, offset 0x14. -/
  | ctrHi
  /-- BLKCTR_LO, offset 0x18. -/
  | blkctrLo
  /-- BLKCTR_HI, offset 0x1C. -/
  | blkctrHi
  /-- DATA word i, offset 0x40 + 4i. -/
  | data (i : Fin 16)
  /-- OUT word i, offset 0x80 + 4i. -/
  | out (i : Fin 16)
  /-- A reserved offset (R54). -/
  | reserved
  deriving DecidableEq, Repr

/-- One host bus access: `MemRead(off, width)` or `MemWrite(off, width, v)` (00_scope.md R11), the width in bytes. Widths
other than 4 are accesses a host can make and R52 faults. -/
inductive Access where
  /-- `MemRead(off, width)`. -/
  | read (off : BitVec 8) (width : Nat)
  /-- `MemWrite(off, width, v)`. -/
  | write (off : BitVec 8) (width : Nat) (v : Word)
  deriving DecidableEq, Repr

/-- Who moves in a step (20_memory.md R58: one total order of host accesses and engine steps; 70_reset_and_hazards.md R250:
the reset event). DESIGN CHOICE, safe, log entry 1. -/
inductive Turn where
  /-- The host makes an access. -/
  | host (a : Access)
  /-- The engine has the turn. -/
  | engine
  /-- The platform asserts reset. -/
  | reset
  deriving DecidableEq, Repr

/-- The state of the machine. -/
structure State where
  /-- STATUS.DONE (10_state.md R36). -/
  done : Bool
  /-- STATUS.ERR (R36). -/
  err : Bool
  /-- STATUS.ERRCODE (R36). -/
  errCode : ErrCode
  /-- STATUS.OUT_LEN (R42). -/
  outLen : BitVec 7
  /-- CTR_LO (R39). -/
  ctrLo : Word
  /-- CTR_HI (R39). -/
  ctrHi : Word
  /-- DATA[0..63] (R41). -/
  data : Vector Byte 64
  /-- OUT[0..63] (R42). -/
  out : Vector Byte 64
  /-- The stream cipher unit. -/
  sc : CipherUnit
  /-- The MAC unit. -/
  mc : MacUnit
  /-- The hash unit. -/
  hs : HashUnit
  /-- `ENG.pending` (R34). -/
  pending : Option Word
  /-- `FAULT` (R44). -/
  fault : FaultSet
  /-- The MODEL's own field: the coming moves, first to move first. When it is empty a pending command is executed
  (weak fairness, 70_reset_and_hazards.md R260). DESIGN CHOICE, safe, log entry 1. -/
  turns : List Turn
  /-- The MODEL's own field: the value the last legal and permitted host read returned. DESIGN CHOICE, safe, log entry 2. -/
  rdata : Option Word
  deriving DecidableEq, Repr

/-- Why a step stops with a fault. All three are raised by commands that would read a `⊥` element (00_scope.md R13); R13
says every such read is guarded, and `State.Inv`, which reset has and every step keeps, rules them out. Safe: the model
stops (DEDUCED, log entry 9). -/
inductive Fault where
  /-- SC_GET_BLOCK, SC_GET_NEXT_BLOCK, SC_GET_KEY or SC_GET_NONCE with `SC.keyed = 1` and `SC.state = ⊥`. Safe. -/
  | poisonCipherState
  /-- MAC_FINALIZE, MAC_FINALIZE_DATA or MAC_RESET in a keyed phase with `MC.kpad = ⊥`. Safe. -/
  | poisonKeyPad
  /-- MAC_UPDATE, MAC_FINALIZE or MAC_FINALIZE_DATA in phase Ready with `MC.ictx = ⊥`. Safe. -/
  | poisonInnerContext
  deriving DecidableEq, Repr

/-- Why a step is refused. -/
inductive Refusal where
  /-- An instruction that has no meaning in the model. No arm of `exec` answers it. Safe. -/
  | notModelled (mnemonic : String)
  /-- Raised by `step` when no agent has a move: no turn is listed and no command is pending (60_exceptions.md R234, the run
  has ended, 70_reset_and_hazards.md R261). Safe (DESIGN CHOICE, log entry 10). -/
  | noEnabledStep
  deriving DecidableEq, Repr

/-- What a step or a command answers. -/
abbrev Result := Host.Outcome State Fault Refusal

/-- The state after the reset event, with FAULT empty and nothing to come (70_reset_and_hazards.md R250; the last two
fields are the model's own, log entry 3). -/
def State.reset : State where
  done := false
  err := false
  errCode := .ok
  outLen := 0
  ctrLo := 0
  ctrHi := 0
  data := Vector.replicate 64 0
  out := Vector.replicate 64 0
  sc := { rounds := BitVec.ofNat 16 Config.roundsReset, keyed := false, state := none, blockCounter := 0 }
  mc := { phase := .unkeyed, kpad := none, ictx := none, ks := [] }
  hs := { hctx := shaInit }
  pending := none
  fault := { hostHazard := false, busAccess := false }
  turns := []
  rdata := none

end Sys2Proof.Machine
end

