-- ==== Sys2Proof/Machine/Flags.lean ====
section
/-! DEFINITION. The STATUS register: its fields (10_state.md R35), the error code values (60_exceptions.md R224) and the latch
updates of issue, success completion and error completion (60_exceptions.md R220, R222, R223). -/

namespace Sys2Proof.Machine

/-- The value of an error code in STATUS.ERRCODE (60_exceptions.md R224). -/
def ErrCode.value : ErrCode → Byte
  | .ok => 0x00
  | .illegalCmd => 0x01
  | .len => 0x02
  | .rounds => 0x03
  | .keyLen => 0x04
  | .nonceLen => 0x05
  | .notInit => 0x06
  | .misuse => 0x07
  | .msgTooLong => 0x08

/-- STATUS.BUSY, a live view of ENG.pending (R34, R35). -/
def State.busy (s : State) : Bool := s.pending.isSome

/-- STATUS.MAC_KEYED, a live view of MC.phase (R35). -/
def State.macKeyed (s : State) : Bool := s.mc.phase != .unkeyed

/-- STATUS.MAC_FINAL, a live view of MC.phase (R35). -/
def State.macFinal (s : State) : Bool := s.mc.phase == .finalized

/-- The STATUS word, from bit 31 down to bit 0 (R35). -/
def State.statusWord (s : State) : Word :=
  0#9 ++ s.outLen ++ s.errCode.value ++ 0#1 ++ BitVec.ofBool s.macFinal ++ BitVec.ofBool s.macKeyed
    ++ BitVec.ofBool s.sc.keyed ++ 0#1 ++ BitVec.ofBool s.err ++ BitVec.ofBool s.done ++ BitVec.ofBool s.busy

/-- The latch part of issue: DONE, ERR and ERRCODE become 0 (60_exceptions.md R220). -/
def State.clearLatches (s : State) : State := { s with done := false, err := false, errCode := .ok }

/-- The latch part of success completion (60_exceptions.md R222). -/
def State.latchSuccess (s : State) : State := { s with done := true, err := false, errCode := .ok }

/-- The latch part of error completion (60_exceptions.md R223). -/
def State.latchError (s : State) (e : ErrCode) : State := { s with done := false, err := true, errCode := e }

end Sys2Proof.Machine
end

