-- ==== Sys2Proof/Machine/Hmac.lean ====
section
/-! DEFINITION. HMAC key normalisation, the padded keys and the tag: 41_hmac.md R150 to R153. -/

namespace Sys2Proof.Machine

/-- `ipad` (R150). -/
def ipad : Byte := 0x36

/-- `opad` (R150). -/
def opad : Byte := 0x5C

/-- `normkey(K)`: a key longer than 64 bytes is hashed, then the key is padded with zero bytes to 64 (R151). -/
def normkey (k : List Byte) : Vector Byte 64 :=
  block64 (if k.length > Config.macBlock then sha256 k else k)

/-- `kpad XOR rep(b, 64)` (R152). -/
def xorPad (kpad : Vector Byte 64) (b : Byte) : List Byte := kpad.toList.map (· ^^^ b)

/-- The inner context primed with the inner key: `absorb(SHA256_INIT, kpad XOR rep(0x36, 64))` (R156, R160). -/
def primeInner (kpad : Vector Byte 64) : ShaContext := absorb shaInit (xorPad kpad ipad)

/-- The tag from the inner context: `SHA256((kpad XOR rep(0x5C, 64)) ++ sha256final(c))` (R158). -/
def macTag (kpad : Vector Byte 64) (c : ShaContext) : List Byte :=
  sha256 (xorPad kpad opad ++ sha256final c)

/-- `HMAC(K, m) = SHA256(okey ++ SHA256(ikey ++ m))` (R153). -/
def hmac (k m : List Byte) : List Byte :=
  sha256 (xorPad (normkey k) opad ++ sha256 (xorPad (normkey k) ipad ++ m))

end Sys2Proof.Machine
end

