-- ==== Sys2Proof/Machine/Operands.lean ====
section
/-! DEFINITION. The operands a command reads beside its word: bytes of DATA (30_encoding.md R83, R84, R86; 10_state.md R41), the
explicit counter CTR (10_state.md R39), and the place a result goes, OUT (10_state.md R42). -/

namespace Sys2Proof.Machine

/-- `DATA[a..a+n)`. -/
def State.dataSlice (s : State) (a n : Nat) : List Byte := slice s.data.toList a n

/-- `DATA[0..LEN)`, the byte operand of format L (R83). -/
def State.dataBytes (s : State) (len : Nat) : List Byte := s.dataSlice 0 len

/-- `CTR = CTR_HI, CTR_LO` (10_state.md R39). -/
def State.ctr (s : State) : BitVec 64 := s.ctrHi ++ s.ctrLo

/-- Write a result of n bytes to OUT[0..n), zeros to OUT[n..64), and n to OUT_LEN (10_state.md R42). -/
def State.putResult (s : State) (r : List Byte) : State :=
  { s with out := block64 r, outLen := BitVec.ofNat 7 r.length }

end Sys2Proof.Machine
end

