-- ==== Sys2Proof/Machine/Salsa20.lean ====
section
/-! DEFINITION. The Salsa20 core and its input block: 40_salsa20.md R100 to R111, 10_state.md R25. -/

namespace Sys2Proof.Machine

/-- `rotl32(v, n)` for n in 1..31 (R100). -/
def rotl32 (v : Word) (n : Nat) : Word := (v <<< n) ||| (v >>> (32 - n))

/-- `const0` (R108). -/
def const0 : Word := 0x61707865

/-- `const1` (R108). -/
def const1 : Word := 0x3320646E

/-- `const2` (R108). -/
def const2 : Word := 0x79622D32

/-- `const3` (R108). -/
def const3 : Word := 0x6B206574

/-- `quarterround(y0, y1, y2, y3) = (z0, z1, z2, z3)` (R102). -/
def quarterround (y0 y1 y2 y3 : Word) : Word × Word × Word × Word :=
  let z1 := y1 ^^^ rotl32 (y0 + y3) 7
  let z2 := y2 ^^^ rotl32 (z1 + y0) 9
  let z3 := y3 ^^^ rotl32 (z2 + z1) 13
  let z0 := y0 ^^^ rotl32 (z3 + z2) 18
  (z0, z1, z2, z3)

/-- Apply a quarter-round in place to the index group (i0, i1, i2, i3) (R103). -/
def quarterAt (i0 i1 i2 i3 : Fin 16) (x : Vector Word 16) : Vector Word 16 :=
  let z := quarterround x[i0] x[i1] x[i2] x[i3]
  (((x.set i0 z.1).set i1 z.2.1).set i2 z.2.2.1).set i3 z.2.2.2

/-- The first pass of a double round (R104). -/
def columnround (x : Vector Word 16) : Vector Word 16 :=
  quarterAt 15 3 7 11 (quarterAt 10 14 2 6 (quarterAt 5 9 13 1 (quarterAt 0 4 8 12 x)))

/-- The second pass of a double round (R105). -/
def rowround (x : Vector Word 16) : Vector Word 16 :=
  quarterAt 15 12 13 14 (quarterAt 10 11 8 9 (quarterAt 5 6 7 4 (quarterAt 0 1 2 3 x)))

/-- `doubleround(x) = rowround(columnround(x))` (R106). -/
def doubleround (x : Vector Word 16) : Vector Word 16 := rowround (columnround x)

/-- `salsa20core(x, r)`: r/2 double rounds, then the input is added word by word (R107). -/
def salsa20core (x : Vector Word 16) (r : Nat) : Vector Word 16 :=
  Vector.zipWith (· + ·) (doubleround^[r / 2] x) x

/-- `initstate(key, nonce)`: the layout of 10_state.md R25 with counter words 0 (R109). -/
def initstate (key nonce : List Byte) : Vector Word 16 :=
  #v[const0, le32 key 0, le32 key 4, le32 key 8,
     le32 key 12, const1, le32 nonce 0, le32 nonce 4,
     0, 0, const2, le32 key 16,
     le32 key 20, le32 key 24, le32 key 28, const3]

/-- `serialize(w)`: the words in index order, each little-endian (R110). -/
def serialize (w : Vector Word 16) : List Byte := w.toList.flatMap le32bytes

/-- The state with the counter in words 8 (low) and 9 (high) (R111, R114). No other word is written, so the key and the nonce a block
command finds are the ones it leaves (R119). -/
def withCounter (st : Vector Word 16) (ctr : BitVec 64) : Vector Word 16 :=
  (st.set 8 (ctr.extractLsb' 0 32)).set 9 (ctr.extractLsb' 32 32)

/-- `salsablock(s, ctr, r)` (R111). -/
def salsablock (st : Vector Word 16) (ctr : BitVec 64) (r : Nat) : List Byte :=
  serialize (salsa20core (withCounter st ctr) r)

/-- The key bytes held in a state: words 1 to 4 and 11 to 14 (R116). Of `initstate(k, n)` they are k (R119). -/
def stateKey (st : Vector Word 16) : List Byte :=
  [st[1], st[2], st[3], st[4], st[11], st[12], st[13], st[14]].flatMap le32bytes

/-- The nonce bytes held in a state: words 6 and 7 (R117). Of `initstate(k, n)` they are n (R119). -/
def stateNonce (st : Vector Word 16) : List Byte := [st[6], st[7]].flatMap le32bytes

end Sys2Proof.Machine
end

