-- ==== Sys2Proof/Machine/Ops.lean ====
section
/-! DEFINITION. The operations the commands share: success completion, error completion (CORE's one form of taking an exception,
60_exceptions.md R223, R228), the issue that ends an error's report (R220, R229), recording a model fault (R226), and the guards
that stand before a read of a `⊥` element (00_scope.md R13). -/

namespace Sys2Proof.Machine

/-- Success completion (60_exceptions.md R222) and the end of the command, `ENG.pending <- none` (R221 step 4; log entry 12). -/
def State.complete (s : State) : State := { s.latchSuccess with pending := none }

/-- Error completion, `raise Error(e)` (60_exceptions.md R223), and the end of the command (R221 step 4): nothing but STATUS
changes. -/
def State.raiseError (s : State) (e : ErrCode) : State := { s.latchError e with pending := none }

/-- Command issue (60_exceptions.md R220). It also ends the report of an earlier error, since CORE has no return (R229). -/
def State.issue (s : State) (c : Word) : State := { s.clearLatches with pending := some c }

/-- The command ends without error in the state given. -/
def succeed (s : State) : Result := .next s.complete

/-- The command ends with an error. -/
def raiseError (s : State) (e : ErrCode) : Result := .next (s.raiseError e)

/-- Union of fault sets. -/
def FaultSet.union (f g : FaultSet) : FaultSet :=
  { hostHazard := f.hostHazard || g.hostHazard, busAccess := f.busAccess || g.busAccess }

/-- The empty fault set. -/
def FaultSet.empty : FaultSet := { hostHazard := false, busAccess := false }

/-- `fault F(r)` for each r of a set: FAULT grows and nothing else changes (60_exceptions.md R226). -/
def State.addFaults (s : State) (f : FaultSet) : State := { s with fault := s.fault.union f }

/-- The guard of SC_GET_BLOCK, SC_GET_NEXT_BLOCK, SC_GET_KEY and SC_GET_NONCE: E_NOT_INIT while `SC.keyed = 0`; otherwise go on
with the words of SC.state (40_salsa20.md R114 to R117). -/
def whenKeyed (s : State) (k : Vector Word 16 → Result) : Result :=
  if s.sc.keyed = false then raiseError s .notInit
  else match s.sc.state with
    | none => .fault .poisonCipherState
    | some st => k st

/-- Go on with the 64 bytes of MC.kpad. -/
def withKeyPad (s : State) (k : Vector Byte 64 → Result) : Result :=
  match s.mc.kpad with
  | none => .fault .poisonKeyPad
  | some kp => k kp

/-- The guard of MAC_UPDATE, MAC_FINALIZE and MAC_FINALIZE_DATA: E_NOT_INIT in phase Unkeyed, E_MISUSE in phase Finalized,
otherwise go on with MC.ictx (41_hmac.md R154, R157 to R159). -/
def whenReady (s : State) (k : ShaContext → Result) : Result :=
  match s.mc.phase with
  | .unkeyed => raiseError s .notInit
  | .finalized => raiseError s .misuse
  | .ready => match s.mc.ictx with
    | none => .fault .poisonInnerContext
    | some c => k c

/-- The last part of MAC_FINALIZE and MAC_FINALIZE_DATA, from the inner context c: the tag to OUT, the context consumed, phase
Finalized (41_hmac.md R158, R159). -/
def finishMac (s : State) (c : ShaContext) : Result :=
  withKeyPad s fun kp =>
    succeed { s.putResult (macTag kp c) with mc := { s.mc with ictx := none, phase := .finalized } }

/-- The block commands: the counter into words 8 and 9 of SC.state, the block to OUT (40_salsa20.md R114, R115). -/
def emitBlock (s : State) (st : Vector Word 16) (ctr : BitVec 64) : State :=
  { s.putResult (salsablock st ctr s.sc.rounds.toNat) with sc := { s.sc with state := some (withCounter st ctr) } }

end Sys2Proof.Machine
end

