-- ==== Sys2Proof/Machine/Bus.lean ====
section
/-! DEFINITION. The register window: which register an offset names (20_memory.md R51), what a read returns (R53, R54, R56), what a
write does (R55, R56), which accesses are illegal (R52) or forbidden while BUSY (70_reset_and_hazards.md R254), and the reset
event (70_reset_and_hazards.md R250). -/

namespace Sys2Proof.Machine

/-- The register at an aligned offset (R51). -/
def Reg.ofOffset (off : BitVec 8) : Reg :=
  if off = 0x00 then .cmd
  else if off = 0x04 then .status
  else if off = 0x08 then .rounds
  else if off = 0x10 then .ctrLo
  else if off = 0x14 then .ctrHi
  else if off = 0x18 then .blkctrLo
  else if off = 0x1C then .blkctrHi
  else if h : 0x40 ≤ off.toNat ∧ off.toNat < 0x80 then .data ⟨(off.toNat - 0x40) / 4, by omega⟩
  else if h : 0x80 ≤ off.toNat ∧ off.toNat < 0xC0 then .out ⟨(off.toNat - 0x80) / 4, by omega⟩
  else .reserved

/-- What a legal and permitted read returns (R53): live values, stored values, and 0 for CMD (10_state.md R38) and reserved
offsets (R54). Words of DATA and OUT are little-endian (R56). -/
def State.readReg (s : State) : Reg → Word
  | .cmd => 0
  | .status => s.statusWord
  | .rounds => s.sc.rounds.zeroExtend 32
  | .ctrLo => s.ctrLo
  | .ctrHi => s.ctrHi
  | .blkctrLo => s.sc.blockCounter.extractLsb' 0 32
  | .blkctrHi => s.sc.blockCounter.extractLsb' 32 32
  | .data i => le32 s.data.toList (4 * i)
  | .out i => le32 s.out.toList (4 * i)
  | .reserved => 0

/-- `DATA[4i+j] <- v[8j+7:8j]` for j = 0..3 (R55, R56). -/
def State.setDataWord (s : State) (i : Fin 16) (v : Word) : State :=
  { s with
    data := (((s.data.set (4 * i.val) (v.extractLsb' 0 8)).set (4 * i.val + 1) (v.extractLsb' 8 8)).set
      (4 * i.val + 2) (v.extractLsb' 16 8)).set (4 * i.val + 3) (v.extractLsb' 24 8) }

/-- What a legal and permitted write does (R55). Writes to read-only registers and to reserved offsets are ignored. -/
def State.writeReg (s : State) (r : Reg) (v : Word) : State :=
  match r with
  | .cmd => s.issue v
  | .ctrLo => { s with ctrLo := v }
  | .ctrHi => { s with ctrHi := v }
  | .data i => s.setDataWord i v
  | .status => s
  | .rounds => s
  | .blkctrLo => s
  | .blkctrHi => s
  | .out _ => s
  | .reserved => s

/-- The offset of an access. -/
def Access.off : Access → BitVec 8
  | .read off _ => off
  | .write off _ _ => off

/-- The width of an access in bytes. -/
def Access.width : Access → Nat
  | .read _ width => width
  | .write _ width _ => width

/-- The only legal access is a 32-bit one at an offset that is a multiple of 4 (R52). -/
def Access.legal (a : Access) : Bool := a.width == 4 && a.off.toNat % 4 == 0

/-- `MemRead(0x04, 4)`, the only access permitted while BUSY = 1 (70_reset_and_hazards.md R254). -/
def Access.isStatusRead (a : Access) : Bool := a == .read 0x04 4

/-- The model faults of an access: F_BUS_ACCESS if it is illegal (R52), F_HOST_HAZARD if it is forbidden while BUSY (R254), both
if both hold (DEDUCED, safe, log entry 5). -/
def State.accessFaults (s : State) (a : Access) : FaultSet :=
  { hostHazard := s.busy && !a.isStatusRead, busAccess := !a.legal }

/-- The effect of a legal and permitted access. -/
def State.perform (s : State) : Access → State
  | .read off _ => { s with rdata := some (s.readReg (Reg.ofOffset off)) }
  | .write off _ v => s.writeReg (Reg.ofOffset off) v

/-- One host access: with a fault it has no other effect (R52, R226, R254). -/
def State.hostAccess (s : State) (a : Access) : State :=
  let f := s.accessFaults a
  if f = .empty then s.perform a else s.addFaults f

/-- The reset event: every element takes its reset value, a pending command is abandoned, FAULT is kept
(70_reset_and_hazards.md R250). The coming turns are the outside world's and stay (log entry 13). -/
def State.resetEvent (s : State) : State := { State.reset with fault := s.fault, turns := s.turns }

end Sys2Proof.Machine
end

