-- ==== Sys2Proof/WellFormed.lean ====
section
/-! DEFINITION. Which commands have an encoding: an operand fits its field (30_encoding.md R86: LEN, KLEN and NLEN are
unsigned 0 to 127, ROUNDS is unsigned 0 to 65535). An operand that fits its field but is outside its LEGAL range is well formed:
it is encodable, and the command's own check rejects it (R86). -/

namespace Sys2Proof

/-- Every operand fits its field of the command word (R86). -/
def Instr.wf : Instr → Bool
  | .scConfig rounds => decide (rounds < 65536)
  | .scInit klen nlen => decide (klen < 128) && decide (nlen < 128)
  | .macKeyAppend len => decide (len < 128)
  | .macUpdate len => decide (len < 128)
  | .macFinalizeData len => decide (len < 128)
  | .hashUpdate len => decide (len < 128)
  | .scGetBlock => true
  | .scGetNextBlock => true
  | .scGetKey => true
  | .scGetNonce => true
  | .scReset => true
  | .macKeyCommit => true
  | .macFinalize => true
  | .macReset => true
  | .hashReset => true
  | .hashFinal => true

/-- `wf` as a proposition. -/
abbrev Instr.WellFormed (i : Instr) : Prop := i.wf = true

end Sys2Proof
end

