-- ==== Sys2Proof/Decode.lean ====
section
/-! DEFINITION. The command encoding of 30_encoding.md: the opcode map (R87), the four formats (R82 to R85), a decoder
that is total on 32-bit words and rejects by name (R88), the encoder (R89) and the assembly text (R89). -/

namespace Sys2Proof

/-- Why a word is no command (30_encoding.md R88). -/
inductive Reject where
  /-- R88 (a): the opcode is not in the map of R87. -/
  | unassignedOpcode
  /-- R88 (b): a bit that the command's format marks reserved is 1. -/
  | reservedBits
  deriving DecidableEq, Repr

/-- The four formats (R82 to R85). -/
inductive Format where
  /-- No operand (R82). -/
  | n
  /-- A length operand (R83). -/
  | l
  /-- Key and nonce lengths (R84). -/
  | k
  /-- A round count (R85). -/
  | r
  deriving DecidableEq, Repr

/-- The mnemonics of the opcode map, without operands (R87). -/
inductive Op where
  | scConfig
  | scInit
  | scGetBlock
  | scGetNextBlock
  | scGetKey
  | scGetNonce
  | scReset
  | macKeyAppend
  | macKeyCommit
  | macUpdate
  | macFinalize
  | macFinalizeData
  | macReset
  | hashReset
  | hashUpdate
  | hashFinal
  deriving DecidableEq, Repr

/-- The rows of the opcode map in the order of R87. -/
def Op.all : List Op :=
  [.scConfig, .scInit, .scGetBlock, .scGetNextBlock, .scGetKey, .scGetNonce, .scReset,
   .macKeyAppend, .macKeyCommit, .macUpdate, .macFinalize, .macFinalizeData, .macReset,
   .hashReset, .hashUpdate, .hashFinal]

/-- The OPCODE column of R87. -/
def Op.code : Op → Byte
  | .scConfig => 0x10
  | .scInit => 0x11
  | .scGetBlock => 0x12
  | .scGetNextBlock => 0x13
  | .scGetKey => 0x14
  | .scGetNonce => 0x15
  | .scReset => 0x16
  | .macKeyAppend => 0x20
  | .macKeyCommit => 0x21
  | .macUpdate => 0x22
  | .macFinalize => 0x23
  | .macFinalizeData => 0x24
  | .macReset => 0x25
  | .hashReset => 0x30
  | .hashUpdate => 0x31
  | .hashFinal => 0x32

/-- The format column of R87. -/
def Op.format : Op → Format
  | .scConfig => .r
  | .scInit => .k
  | .scGetBlock => .n
  | .scGetNextBlock => .n
  | .scGetKey => .n
  | .scGetNonce => .n
  | .scReset => .n
  | .macKeyAppend => .l
  | .macKeyCommit => .n
  | .macUpdate => .l
  | .macFinalize => .n
  | .macFinalizeData => .l
  | .macReset => .n
  | .hashReset => .n
  | .hashUpdate => .l
  | .hashFinal => .n

/-- The bits a format marks reserved: 31:8 for N, 31:15 for L, 31:23 and 15 for K, 15:8 for R (R82 to R85). -/
def Format.reserved : Format → Word
  | .n => 0xFFFFFF00
  | .l => 0xFFFF8000
  | .k => 0xFF808000
  | .r => 0x0000FF00

/-- The match column of R87's second table. -/
def Op.pattern : Op → Word
  | .scConfig => 0x00000010
  | .scInit => 0x00000011
  | .scGetBlock => 0x00000012
  | .scGetNextBlock => 0x00000013
  | .scGetKey => 0x00000014
  | .scGetNonce => 0x00000015
  | .scReset => 0x00000016
  | .macKeyAppend => 0x00000020
  | .macKeyCommit => 0x00000021
  | .macUpdate => 0x00000022
  | .macFinalize => 0x00000023
  | .macFinalizeData => 0x00000024
  | .macReset => 0x00000025
  | .hashReset => 0x00000030
  | .hashUpdate => 0x00000031
  | .hashFinal => 0x00000032

/-- The mask column of R87's second table. -/
def Op.mask : Op → Word
  | .scConfig => 0x0000FFFF
  | .scInit => 0xFF8080FF
  | .macKeyAppend => 0xFFFF80FF
  | .macUpdate => 0xFFFF80FF
  | .macFinalizeData => 0xFFFF80FF
  | .hashUpdate => 0xFFFF80FF
  | .scGetBlock => 0xFFFFFFFF
  | .scGetNextBlock => 0xFFFFFFFF
  | .scGetKey => 0xFFFFFFFF
  | .scGetNonce => 0xFFFFFFFF
  | .scReset => 0xFFFFFFFF
  | .macKeyCommit => 0xFFFFFFFF
  | .macFinalize => 0xFFFFFFFF
  | .macReset => 0xFFFFFFFF
  | .hashReset => 0xFFFFFFFF
  | .hashFinal => 0xFFFFFFFF

/-- The mnemonic as the spec spells it (R87). -/
def Op.mnemonic : Op → String
  | .scConfig => "SC_CONFIG"
  | .scInit => "SC_INIT"
  | .scGetBlock => "SC_GET_BLOCK"
  | .scGetNextBlock => "SC_GET_NEXT_BLOCK"
  | .scGetKey => "SC_GET_KEY"
  | .scGetNonce => "SC_GET_NONCE"
  | .scReset => "SC_RESET"
  | .macKeyAppend => "MAC_KEY_APPEND"
  | .macKeyCommit => "MAC_KEY_COMMIT"
  | .macUpdate => "MAC_UPDATE"
  | .macFinalize => "MAC_FINALIZE"
  | .macFinalizeData => "MAC_FINALIZE_DATA"
  | .macReset => "MAC_RESET"
  | .hashReset => "HASH_RESET"
  | .hashUpdate => "HASH_UPDATE"
  | .hashFinal => "HASH_FINAL"

/-- A command's row of the opcode map. -/
def Instr.op : Instr → Op
  | .scConfig _ => .scConfig
  | .scInit _ _ => .scInit
  | .scGetBlock => .scGetBlock
  | .scGetNextBlock => .scGetNextBlock
  | .scGetKey => .scGetKey
  | .scGetNonce => .scGetNonce
  | .scReset => .scReset
  | .macKeyAppend _ => .macKeyAppend
  | .macKeyCommit => .macKeyCommit
  | .macUpdate _ => .macUpdate
  | .macFinalize => .macFinalize
  | .macFinalizeData _ => .macFinalizeData
  | .macReset => .macReset
  | .hashReset => .hashReset
  | .hashUpdate _ => .hashUpdate
  | .hashFinal => .hashFinal

/-- OPCODE = `cmd[7:0]` in every format (R81). -/
def opcodeField (c : Word) : Byte := c.extractLsb' 0 8

/-- LEN, or KLEN, = `zext(cmd[14:8])` (R86). -/
def lenField (c : Word) : Nat := (c.extractLsb' 8 7).toNat

/-- NLEN = `zext(cmd[22:16])` (R86). -/
def nlenField (c : Word) : Nat := (c.extractLsb' 16 7).toNat

/-- ROUNDS = `zext(cmd[31:16])` (R86). -/
def roundsField (c : Word) : Nat := (c.extractLsb' 16 16).toNat

/-- The row whose opcode a byte is, if any (R87). -/
def Op.ofCode (b : Byte) : Option Op := Op.all.find? (fun o => o.code == b)

/-- The command of a row with the operands read from the word (R86). -/
def Op.assemble : Op → Word → Instr
  | .scConfig, c => .scConfig (roundsField c)
  | .scInit, c => .scInit (lenField c) (nlenField c)
  | .scGetBlock, _ => .scGetBlock
  | .scGetNextBlock, _ => .scGetNextBlock
  | .scGetKey, _ => .scGetKey
  | .scGetNonce, _ => .scGetNonce
  | .scReset, _ => .scReset
  | .macKeyAppend, c => .macKeyAppend (lenField c)
  | .macKeyCommit, _ => .macKeyCommit
  | .macUpdate, c => .macUpdate (lenField c)
  | .macFinalize, _ => .macFinalize
  | .macFinalizeData, c => .macFinalizeData (lenField c)
  | .macReset, _ => .macReset
  | .hashReset, _ => .hashReset
  | .hashUpdate, c => .hashUpdate (lenField c)
  | .hashFinal, _ => .hashFinal

/-- Decode a command word (R87), or say by which case of R88 it is illegal. -/
def decode (c : Word) : Except Reject Instr :=
  match Op.ofCode (opcodeField c) with
  | none => .error .unassignedOpcode
  | some o => if c &&& o.format.reserved = 0 then .ok (o.assemble c) else .error .reservedBits

/-- Format N: 24 zero bits, then OPCODE (R89). -/
def encodeN (o : Op) : Word := 0#24 ++ o.code

/-- Format L: 17 zero bits, LEN, OPCODE (R89). -/
def encodeL (o : Op) (len : Nat) : Word := 0#17 ++ BitVec.ofNat 7 len ++ o.code

/-- Format K: 9 zero bits, NLEN, a zero bit, KLEN, OPCODE (R89). -/
def encodeK (o : Op) (klen nlen : Nat) : Word :=
  0#9 ++ BitVec.ofNat 7 nlen ++ 0#1 ++ BitVec.ofNat 7 klen ++ o.code

/-- Format R: ROUNDS, 8 zero bits, OPCODE (R89). -/
def encodeR (o : Op) (rounds : Nat) : Word := BitVec.ofNat 16 rounds ++ 0#8 ++ o.code

/-- The word of a well-formed command (R89). -/
def encode : Instr → Word
  | .scConfig rounds => encodeR .scConfig rounds
  | .scInit klen nlen => encodeK .scInit klen nlen
  | .scGetBlock => encodeN .scGetBlock
  | .scGetNextBlock => encodeN .scGetNextBlock
  | .scGetKey => encodeN .scGetKey
  | .scGetNonce => encodeN .scGetNonce
  | .scReset => encodeN .scReset
  | .macKeyAppend len => encodeL .macKeyAppend len
  | .macKeyCommit => encodeN .macKeyCommit
  | .macUpdate len => encodeL .macUpdate len
  | .macFinalize => encodeN .macFinalize
  | .macFinalizeData len => encodeL .macFinalizeData len
  | .macReset => encodeN .macReset
  | .hashReset => encodeN .hashReset
  | .hashUpdate len => encodeL .hashUpdate len
  | .hashFinal => encodeN .hashFinal

/-- The operands of a command in the order R89 writes them. -/
def Instr.operands : Instr → List Nat
  | .scConfig rounds => [rounds]
  | .scInit klen nlen => [klen, nlen]
  | .macKeyAppend len => [len]
  | .macUpdate len => [len]
  | .macFinalizeData len => [len]
  | .hashUpdate len => [len]
  | .scGetBlock => []
  | .scGetNextBlock => []
  | .scGetKey => []
  | .scGetNonce => []
  | .scReset => []
  | .macKeyCommit => []
  | .macFinalize => []
  | .macReset => []
  | .hashReset => []
  | .hashFinal => []

/-- The assembly line of a command: the mnemonic, then the operands in decimal (R89). -/
def Instr.assembly (i : Instr) : String :=
  match i.operands with
  | [] => i.op.mnemonic
  | ops => i.op.mnemonic ++ " " ++ String.intercalate ", " (ops.map toString)

/-- The command the decoder reads from a word numbered as spec/opcode_table.json numbers it. A command is one 32-bit word
(R80), so the bits above `nbits` are zero and nothing else is laid out. -/
def decodeTableWord (nbits w : Nat) : Option Instr :=
  match decode (BitVec.ofNat 32 (w % 2 ^ nbits)) with
  | .ok i => some i
  | .error _ => none

end Sys2Proof
end

