-- ==== Sys2Proof/Machine/HashUnit.lean ====
section
/-! DEFINITION. The commands of the stand-alone hash unit HS: 42_sha256.md R191 to R193. -/

namespace Sys2Proof.Machine

/-- HASH_RESET (R191). -/
def execHashReset (s : State) : Result := succeed { s with hs := { hctx := shaInit } }

/-- HASH_UPDATE (R192). -/
def execHashUpdate (len : Nat) (s : State) : Result :=
  if len > Config.lenMax then raiseError s .len
  else if s.hs.hctx.cnt + len > Config.shaMaxBytes then raiseError s .msgTooLong
  else succeed { s with hs := { hctx := absorb s.hs.hctx (s.dataBytes len) } }

/-- HASH_FINAL (R193). -/
def execHashFinal (s : State) : Result :=
  succeed { s.putResult (sha256final s.hs.hctx) with hs := { hctx := shaInit } }

end Sys2Proof.Machine
end

