-- ==== Sys2Proof/Machine/Mac.lean ====
section
/-! DEFINITION. The commands of the MAC unit MC: 41_hmac.md R155 to R160. -/

namespace Sys2Proof.Machine

/-- MAC_KEY_APPEND (R155). -/
def execMacKeyAppend (len : Nat) (s : State) : Result :=
  if len > Config.lenMax then raiseError s .len
  else if s.mc.ks.length + len > Config.shaMaxBytes then raiseError s .msgTooLong
  else succeed { s with mc := { s.mc with ks := s.mc.ks ++ s.dataBytes len } }

/-- MAC_KEY_COMMIT (R156). -/
def execMacKeyCommit (s : State) : Result :=
  succeed { s with
    mc := { phase := .ready, kpad := some (normkey s.mc.ks), ictx := some (primeInner (normkey s.mc.ks)), ks := [] } }

/-- MAC_UPDATE (R157). -/
def execMacUpdate (len : Nat) (s : State) : Result :=
  if len > Config.lenMax then raiseError s .len
  else whenReady s fun c =>
    if c.cnt + len > Config.shaMaxBytes then raiseError s .msgTooLong
    else succeed { s with mc := { s.mc with ictx := some (absorb c (s.dataBytes len)) } }

/-- MAC_FINALIZE (R158). -/
def execMacFinalize (s : State) : Result :=
  whenReady s fun c => finishMac s c

/-- MAC_FINALIZE_DATA (R159). -/
def execMacFinalizeData (len : Nat) (s : State) : Result :=
  if len > Config.lenMax then raiseError s .len
  else whenReady s fun c =>
    if c.cnt + len > Config.shaMaxBytes then raiseError s .msgTooLong
    else finishMac s (absorb c (s.dataBytes len))

/-- MAC_RESET (R160). -/
def execMacReset (s : State) : Result :=
  if s.mc.phase = .unkeyed then raiseError s .notInit
  else withKeyPad s fun kp =>
    succeed { s with mc := { s.mc with ictx := some (primeInner kp), phase := .ready } }

end Sys2Proof.Machine
end

