-- ==== Sys2Proof/Machine/StreamCipher.lean ====
section
/-! DEFINITION. The commands of the stream cipher unit SC: 40_salsa20.md R112 to R118. -/

namespace Sys2Proof.Machine

/-- SC_CONFIG (R112). A well-formed count fits 16 bits (log entry 11). -/
def execScConfig (rounds : Nat) (s : State) : Result :=
  if rounds = 0 ∨ rounds % 2 = 1 then raiseError s .rounds
  else succeed { s with
    sc := { rounds := BitVec.ofNat 16 rounds, keyed := false, state := none, blockCounter := 0 } }

/-- SC_INIT (R113): the key is `DATA[0..32)`, the nonce `DATA[32..40)`. -/
def execScInit (klen nlen : Nat) (s : State) : Result :=
  if klen ≠ Config.keyBytes then raiseError s .keyLen
  else if nlen ≠ Config.nonceBytes then raiseError s .nonceLen
  else succeed { s with
    sc := { s.sc with
      state := some (initstate (s.dataSlice 0 klen) (s.dataSlice klen nlen))
      blockCounter := 0
      keyed := true } }

/-- SC_GET_BLOCK (R114). -/
def execScGetBlock (s : State) : Result :=
  whenKeyed s fun st => succeed (emitBlock s st s.ctr)

/-- SC_GET_NEXT_BLOCK (R115). -/
def execScGetNextBlock (s : State) : Result :=
  whenKeyed s fun st =>
    let s' := emitBlock s st s.sc.blockCounter
    succeed { s' with sc := { s'.sc with blockCounter := s.sc.blockCounter + 1 } }

/-- SC_GET_KEY (R116): the key of the last successful SC_INIT (R119), read from SC.state. -/
def execScGetKey (s : State) : Result :=
  whenKeyed s fun st => succeed (s.putResult (stateKey st))

/-- SC_GET_NONCE (R117): the nonce of the last successful SC_INIT (R119), read from SC.state. -/
def execScGetNonce (s : State) : Result :=
  whenKeyed s fun st => succeed (s.putResult (stateNonce st))

/-- SC_RESET (R118). -/
def execScReset (s : State) : Result :=
  succeed { s with sc := { s.sc with blockCounter := 0 } }

end Sys2Proof.Machine
end

