-- ==== Sys2Proof/Machine/Dispatch.lean ====
section
/-! DEFINITION. One arm per command: the decoded command's rule (60_exceptions.md R221 step 3). -/

namespace Sys2Proof.Machine

def exec (i : Instr) (s : State) : Host.Outcome State Fault Refusal :=
  match i with
  | .scConfig rounds => Sys2Proof.Machine.execScConfig rounds s
  | .scInit klen nlen => Sys2Proof.Machine.execScInit klen nlen s
  | .scGetBlock => Sys2Proof.Machine.execScGetBlock s
  | .scGetNextBlock => Sys2Proof.Machine.execScGetNextBlock s
  | .scGetKey => Sys2Proof.Machine.execScGetKey s
  | .scGetNonce => Sys2Proof.Machine.execScGetNonce s
  | .scReset => Sys2Proof.Machine.execScReset s
  | .macKeyAppend len => Sys2Proof.Machine.execMacKeyAppend len s
  | .macKeyCommit => Sys2Proof.Machine.execMacKeyCommit s
  | .macUpdate len => Sys2Proof.Machine.execMacUpdate len s
  | .macFinalize => Sys2Proof.Machine.execMacFinalize s
  | .macFinalizeData len => Sys2Proof.Machine.execMacFinalizeData len s
  | .macReset => Sys2Proof.Machine.execMacReset s
  | .hashReset => Sys2Proof.Machine.execHashReset s
  | .hashUpdate len => Sys2Proof.Machine.execHashUpdate len s
  | .hashFinal => Sys2Proof.Machine.execHashFinal s

end Sys2Proof.Machine
end

