-- ==== Sys2Proof/Machine/Engine.lean ====
section
/-! DEFINITION. The engine step for a pending command word (60_exceptions.md R221): decode it; an illegal word completes with
E_ILLEGAL_CMD (30_encoding.md R88), any other runs its command. `succeed` and `raiseError` clear ENG.pending (R221 step 4). -/

namespace Sys2Proof.Machine

/-- The engine step on the pending word c (R221). -/
def engineStep (c : Word) (s : State) : Result :=
  match decode c with
  | .error _ => raiseError s .illegalCmd
  | .ok i => exec i s

/-- The engine's turn. With no command pending the engine has no enabled step and its turn passes (60_exceptions.md R234; log
entry 1). -/
def engineTurn (s : State) : Result :=
  match s.pending with
  | none => .next s
  | some c => engineStep c s

end Sys2Proof.Machine
end

