-- ==== Sys2Proof/Machine/Step.lean ====
section
/-! DEFINITION. One step of the machine: the next turn is taken (20_memory.md R58). With no turn listed, a pending command is
executed (weak fairness, 70_reset_and_hazards.md R260); with nothing pending either, no step is enabled. -/

namespace Sys2Proof.Machine

/-- One step. -/
def step (s : State) : Host.Outcome State Fault Refusal :=
  match s.turns with
  | [] => if s.busy then engineTurn s else .refused .noEnabledStep
  | .host a :: rest => .next (State.hostAccess { s with turns := rest } a)
  | .engine :: rest => engineTurn { s with turns := rest }
  | .reset :: rest => .next (State.resetEvent { s with turns := rest })

/-- The state with a command word where the engine takes its next one: the word is issued as by a permitted write to CMD
(60_exceptions.md R220), and the engine has the next turn. CORE fetches nothing (20_memory.md R62), so this stands for the
host's write (log entry 6). -/
def State.withFetchWord (s : State) (nbits w : Nat) : State :=
  { s.issue (BitVec.ofNat 32 (w % 2 ^ nbits)) with turns := .engine :: s.turns }

end Sys2Proof.Machine
end

