-- ==== Sys2Proof/Machine/HostSequence.lean ====
section
/-! DEFINITION. The host's statements and pseudo-commands of 30_encoding.md R90, as the turns they make. They are host
sequences, not commands: they have no encoding. `lat` is the parameter LATENCY (00_scope.md R7, 70_reset_and_hazards.md R260),
counted in the STATUS reads the host makes before the engine moves. DESIGN CHOICE (log entry 14): each WAIT's number is given
beforehand. The numbers are otherwise open: every WAIT has its own, two WAITs for the same command word too. -/

namespace Sys2Proof.Machine.HostSequence

/-- `WR off, v`. -/
def wr (off : BitVec 8) (v : Word) : List Turn := [.host (.write off 4 v)]

/-- `RD off`. -/
def rd (off : BitVec 8) : List Turn := [.host (.read off 4)]

/-- `ISSUE c`. -/
def issue (i : Instr) : List Turn := wr 0x00 (encode i)

/-- `WAIT`: reads of STATUS until BUSY = 0; n of them before the engine step, one after it. -/
def wait (n : Nat) : List Turn := List.replicate n (.host (.read 0x04 4)) ++ [.engine, .host (.read 0x04 4)]

/-- `DO c`: `ISSUE c` followed by `WAIT`. `lat` serves this one DO: `lat i` is the number of its own WAIT (log entry 14). -/
def doCommand (lat : Instr → Nat) (i : Instr) : List Turn := issue i ++ wait (lat i)

/-- `LOAD b`: b, padded with zero bytes to a multiple of 4, word by word into DATA. R90 requires `|b| <= 64`. -/
def load (b : List Byte) : List Turn :=
  (List.range ((b.length + 3) / 4)).flatMap fun i => wr (BitVec.ofNat 8 (0x40 + 4 * i)) (le32 b (4 * i))

/-- `SETCTR n`. -/
def setCtr (n : BitVec 64) : List Turn := wr 0x10 (n.extractLsb' 0 32) ++ wr 0x14 (n.extractLsb' 32 32)

/-- The chunks of a byte sequence, 64 bytes each but the last, at most `fuel` of them; an empty sequence has none. -/
def chunksFuel : Nat → List Byte → List (List Byte)
  | 0, _ => []
  | fuel + 1, b => if b.isEmpty then [] else b.take 64 :: chunksFuel fuel (b.drop 64)

/-- The chunks of a byte sequence. -/
def chunks (b : List Byte) : List (List Byte) := chunksFuel b.length b

/-- `LOAD ch; DO (op |ch|)` for each chunk ch of b. `lat j` serves the DO of chunk j alone (log entry 14). -/
def feedChunks (lat : Nat → Instr → Nat) (op : Nat → Instr) (b : List Byte) : List Turn :=
  ((chunks b).mapIdx fun j ch => load ch ++ doCommand (lat j) (op ch.length)).flatten

/-- `MAC_NEW k`. `lat j` serves the j-th DO of the sequence alone, so two equal MAC_KEY_APPEND words may poll a different number
of times (log entry 14). -/
def macNew (lat : Nat → Instr → Nat) (k : List Byte) : List Turn :=
  feedChunks lat .macKeyAppend k ++ doCommand (lat (chunks k).length) .macKeyCommit

/-- `HASH m`. `lat j` serves the j-th DO of the sequence alone, so two equal HASH_UPDATE words may poll a different number of
times (log entry 14). -/
def hash (lat : Nat → Instr → Nat) (m : List Byte) : List Turn :=
  doCommand (lat 0) .hashReset ++ feedChunks (fun j => lat (j + 1)) .hashUpdate m
    ++ doCommand (lat ((chunks m).length + 1)) .hashFinal

end Sys2Proof.Machine.HostSequence
end

