-- ==== Sys2Proof/Safety.lean ====
section
/-! DEFINITION. The terms claims use: the invariant of the state (10_state.md R22 to R42), the final states and the observation of a
run (70_reset_and_hazards.md R261), the error a command must report (60_exceptions.md R224, R225), the unit a command belongs to
(70_reset_and_hazards.md R257), its result (10_state.md R42), and command sequences with the host's DATA between them. -/

namespace Sys2Proof.Machine

/-- A SHA-256 context is well formed: `|buf| = cnt mod 64` (so `|buf| < 64`) and cnt is at most SHA_MAX_BYTES (10_state.md R33). -/
structure ShaContext.Wf (c : ShaContext) : Prop where
  buf_length : c.buf.length = c.cnt % 64
  cnt_le : c.cnt ≤ Config.shaMaxBytes

/-- The constants stand in words 0, 5, 10 and 15 (10_state.md R25). -/
def HasConstants (st : Vector Word 16) : Prop :=
  st[0] = const0 ∧ st[5] = const1 ∧ st[10] = const2 ∧ st[15] = const3

/-- What holds of SC: the round count is even and at least 2 (10_state.md R22); SC.state holds words exactly while `SC.keyed = 1`
(R23, R24), laid out with the constants of R25; the counter of an unkeyed unit is 0 (DEDUCED from R26 and 40_salsa20.md
R112 to R118). -/
structure CipherUnit.Inv (u : CipherUnit) : Prop where
  rounds_even : u.rounds.toNat % 2 = 0
  rounds_pos : 2 ≤ u.rounds.toNat
  keyed_iff : u.keyed = u.state.isSome
  constants : ∀ st, u.state = some st → HasConstants st
  counter_unkeyed : u.keyed = false → u.blockCounter = 0

/-- What holds of MC: MC.kpad is `⊥` exactly in phase Unkeyed (10_state.md R29), MC.ictx holds a value exactly in phase Ready (R30),
that value is the context primed with the inner key after some message bytes (41_hmac.md R161), and the staging is at most
SHA_MAX_BYTES long (R31). -/
structure MacUnit.Inv (u : MacUnit) : Prop where
  kpad_iff : u.kpad = none ↔ u.phase = .unkeyed
  ictx_iff : u.ictx.isSome = true ↔ u.phase = .ready
  ictx_wf : ∀ c, u.ictx = some c → c.Wf
  ictx_primed : ∀ c kp, u.ictx = some c → u.kpad = some kp → ∃ m, c = absorb (primeInner kp) m
  ks_le : u.ks.length ≤ Config.shaMaxBytes

/-- What holds of the STATUS latches: at most one of DONE and ERR is 1, and both are 0 while BUSY = 1 (10_state.md R36); ERR says
whether ERRCODE is not OK (60_exceptions.md R222 to R224). -/
structure State.LatchInv (s : State) : Prop where
  not_both : ¬(s.done = true ∧ s.err = true)
  busy_clear : s.busy = true → s.done = false ∧ s.err = false
  err_iff : s.err = true ↔ s.errCode ≠ .ok

/-- What holds of the result window: OUT_LEN is 0 to 64, and OUT is zero from OUT_LEN on (10_state.md R35, R42). -/
structure State.OutInv (s : State) : Prop where
  len_le : s.outLen.toNat ≤ 64
  zero_after : ∀ i, s.outLen.toNat ≤ i → i < 64 → s.out.toList.getD i 0 = 0

/-- The invariant of the machine. Of HS: its context is well formed (10_state.md R33) and is SHA256_INIT after some bytes
(42_sha256.md R187, R191 to R193). -/
structure State.Inv (s : State) : Prop where
  cipher : s.sc.Inv
  mac : s.mc.Inv
  hash : s.hs.hctx.Wf
  hash_absorbed : ∃ m, s.hs.hctx = absorb shaInit m
  latch : s.LatchInv
  window : s.OutInv

/-- The run has ended: no host access is to come and no command is pending (70_reset_and_hazards.md R261). DESIGN CHOICE (log entry
10): R261 does not say anything about a reset during the run. Here a reset turn that is still listed after the host's last access
belongs to the run, so the run has not ended before it and its observation is that of the state after the reset. A listed engine
turn counts too; with no command pending it passes and leaves the observation as it is. -/
def State.ended (s : State) : Bool := s.turns.isEmpty && !s.busy

/-- A good final state: the run has ended with FAULT empty (60_exceptions.md R226, 70_reset_and_hazards.md R261). -/
def State.goodFinal (s : State) : Bool := s.ended && s.fault == .empty

/-- The observation of a run: what host reads of STATUS, ROUNDS, CTR, BLKCTR, DATA and OUT would return, and FAULT
(70_reset_and_hazards.md R261). -/
structure Observation where
  (status rounds ctrLo ctrHi blkctrLo blkctrHi : Word)
  (data out : List Word)
  (fault : FaultSet)
  deriving DecidableEq, Repr

/-- The observation of a state (70_reset_and_hazards.md R261). -/
def State.observe (s : State) : Observation where
  status := s.readReg .status
  rounds := s.readReg .rounds
  ctrLo := s.readReg .ctrLo
  ctrHi := s.readReg .ctrHi
  blkctrLo := s.readReg .blkctrLo
  blkctrHi := s.readReg .blkctrHi
  data := (List.finRange 16).map fun i => s.readReg (.data i)
  out := (List.finRange 16).map fun i => s.readReg (.out i)
  fault := s.fault

/-- The units (10_state.md R21). -/
inductive HwUnit where
  | sc
  | mc
  | hs
  deriving DecidableEq, Repr

end Sys2Proof.Machine

namespace Sys2Proof

open Machine

/-- The unit of a command (30_encoding.md R87, 70_reset_and_hazards.md R257). -/
def Instr.unit : Instr → HwUnit
  | .scConfig _ => .sc
  | .scInit _ _ => .sc
  | .scGetBlock => .sc
  | .scGetNextBlock => .sc
  | .scGetKey => .sc
  | .scGetNonce => .sc
  | .scReset => .sc
  | .macKeyAppend _ => .mc
  | .macKeyCommit => .mc
  | .macUpdate _ => .mc
  | .macFinalize => .mc
  | .macFinalizeData _ => .mc
  | .macReset => .mc
  | .hashReset => .hs
  | .hashUpdate _ => .hs
  | .hashFinal => .hs

/-- How many bytes an output-producing command writes to OUT, and none for every other command (10_state.md R42; 40_salsa20.md
R114 to R117; 41_hmac.md R158, R159; 42_sha256.md R193). -/
def Instr.outBytes : Instr → Option Nat
  | .scGetBlock => some 64
  | .scGetNextBlock => some 64
  | .scGetKey => some 32
  | .scGetNonce => some 8
  | .macFinalize => some 32
  | .macFinalizeData _ => some 32
  | .hashFinal => some 32
  | .scConfig _ => none
  | .scInit _ _ => none
  | .scReset => none
  | .macKeyAppend _ => none
  | .macKeyCommit => none
  | .macUpdate _ => none
  | .macReset => none
  | .hashReset => none
  | .hashUpdate _ => none

/-- The LEN operand of a format L command. -/
def Instr.lenOperand : Instr → Option Nat
  | .macKeyAppend len => some len
  | .macUpdate len => some len
  | .macFinalizeData len => some len
  | .hashUpdate len => some len
  | .scConfig _ => none
  | .scInit _ _ => none
  | .scGetBlock => none
  | .scGetNextBlock => none
  | .scGetKey => none
  | .scGetNonce => none
  | .scReset => none
  | .macKeyCommit => none
  | .macFinalize => none
  | .macReset => none
  | .hashReset => none
  | .hashFinal => none

/-- Whether a command is one of those R224 lists for E_NOT_INIT on SC. -/
def Instr.needsCipherKey : Instr → Bool
  | .scConfig _ => false
  | .scInit _ _ => false
  | .scGetBlock => true
  | .scGetNextBlock => true
  | .scGetKey => true
  | .scGetNonce => true
  | .scReset => false
  | .macKeyAppend _ => false
  | .macKeyCommit => false
  | .macUpdate _ => false
  | .macFinalize => false
  | .macFinalizeData _ => false
  | .macReset => false
  | .hashReset => false
  | .hashUpdate _ => false
  | .hashFinal => false

/-- Whether a command is one of those R224 lists for E_NOT_INIT on MC. -/
def Instr.needsMacKey : Instr → Bool
  | .scConfig _ => false
  | .scInit _ _ => false
  | .scGetBlock => false
  | .scGetNextBlock => false
  | .scGetKey => false
  | .scGetNonce => false
  | .scReset => false
  | .macKeyAppend _ => false
  | .macKeyCommit => false
  | .macUpdate _ => true
  | .macFinalize => true
  | .macFinalizeData _ => true
  | .macReset => true
  | .hashReset => false
  | .hashUpdate _ => false
  | .hashFinal => false

/-- Whether a command is one of those R224 lists for E_MISUSE. -/
def Instr.needsMacReady : Instr → Bool
  | .scConfig _ => false
  | .scInit _ _ => false
  | .scGetBlock => false
  | .scGetNextBlock => false
  | .scGetKey => false
  | .scGetNonce => false
  | .scReset => false
  | .macKeyAppend _ => false
  | .macKeyCommit => false
  | .macUpdate _ => true
  | .macFinalize => true
  | .macFinalizeData _ => true
  | .macReset => false
  | .hashReset => false
  | .hashUpdate _ => false
  | .hashFinal => false

end Sys2Proof

namespace Sys2Proof.Machine

/-- The cause column of R224 for a decoded command: whether error e applies to command i in state s. -/
def ErrCode.applies (e : ErrCode) (i : Instr) (s : State) : Bool :=
  match e with
  | .ok => false
  | .illegalCmd => false
  | .len => i.lenOperand.any (fun n => decide (n > 64))
  | .rounds => match i with
    | .scConfig r => decide (r = 0 ∨ r % 2 = 1)
    | _ => false
  | .keyLen => match i with
    | .scInit klen _ => decide (klen ≠ 32)
    | _ => false
  | .nonceLen => match i with
    | .scInit _ nlen => decide (nlen ≠ 8)
    | _ => false
  | .notInit =>
    (i.needsCipherKey && !s.sc.keyed) || (i.needsMacKey && s.mc.phase == .unkeyed)
  | .misuse => i.needsMacReady && s.mc.phase == .finalized
  | .msgTooLong => match i with
    | .macKeyAppend n => decide (s.mc.ks.length + n > 2 ^ 61 - 1)
    | .macUpdate n => s.mc.ictx.any (fun c => decide (c.cnt + n > 2 ^ 61 - 1))
    | .macFinalizeData n => s.mc.ictx.any (fun c => decide (c.cnt + n > 2 ^ 61 - 1))
    | .hashUpdate n => decide (s.hs.hctx.cnt + n > 2 ^ 61 - 1)
    | _ => false

/-- The errors a decoded command can raise, in the order of R225. -/
def ErrCode.order : List ErrCode := [.len, .rounds, .keyLen, .nonceLen, .notInit, .misuse, .msgTooLong]

/-- The first error that applies, in the order of R225, or OK. -/
def firstError (i : Instr) (s : State) : ErrCode := (ErrCode.order.find? (fun e => e.applies i s)).getD .ok

/-- What the host has put in DATA and CTR, and then a command. -/
structure HostedCommand where
  data : Vector Byte 64
  ctrLo : Word
  ctrHi : Word
  cmd : Instr
  deriving DecidableEq, Repr

/-- The message bytes of a command: those of a MAC_UPDATE whose LEN is legal (41_hmac.md R157, R161). -/
def HostedCommand.macBytes (h : HostedCommand) : List Byte :=
  match h.cmd with
  | .macUpdate n => if n ≤ 64 then h.data.toList.take n else []
  | _ => []

/-- Run commands one after another, the host setting DATA and CTR before each: the "whatever block commands run in between" of
40_salsa20.md R119, for any commands. -/
def execHosted : List HostedCommand → State → Result
  | [], s => .next s
  | h :: rest, s => match exec h.cmd { s with data := h.data, ctrLo := h.ctrLo, ctrHi := h.ctrHi } with
    | .next t => execHosted rest t
    | r => r

/-- The state with DATA replaced by bytes the host has loaded, followed by zeros. -/
def State.loaded (s : State) (b : List Byte) : State := { s with data := block64 b }

/-- For each chunk in order, the host loads it and a command with its length runs. -/
def feedChunks (cmd : Nat → Instr) : List (List Byte) → State → Result
  | [], s => .next s
  | b :: rest, s => match exec (cmd b.length) (s.loaded b) with
    | .next t => feedChunks cmd rest t
    | r => r

/-- The engine has the next move, after which the turns `rest` are left. -/
def State.engineNext (s : State) (rest : List Turn) : Prop :=
  s.turns = .engine :: rest ∨ (s.turns = [] ∧ rest = [])

/-- In s, a 32-bit host read at an offset returns w and changes nothing (20_memory.md R53, R57). -/
def ReadsAs (s : State) (off : Nat) (w : Word) : Prop :=
  ∀ rest, step { s with turns := .host (.read (BitVec.ofNat 8 off) 4) :: rest } =
    .next { s with turns := rest, rdata := some w }

/-- In s, a 32-bit host write of v at an offset gives the state t (20_memory.md R55). -/
def WritesAs (s : State) (off : Nat) (v : Word) (t : State) : Prop :=
  ∀ rest, step { s with turns := .host (.write (BitVec.ofNat 8 off) 4 v) :: rest } = .next { t with turns := rest }

/-- A word with these bits where the mask has ones decodes to the command i gives, its operands read from the word (the "Operands"
and "Encoding" lines of a command rule, 30_encoding.md R81 to R87). -/
def DecodesAs (pattern mask : Word) (i : Word → Instr) : Prop :=
  ∀ c : Word, c &&& mask = pattern → decode c = .ok (i c)

/-- A word with this opcode and one of these reserved bits set raises E_ILLEGAL_CMD and changes nothing but STATUS (the "Errors"
line of a command rule, 30_encoding.md R88). -/
def RefusesReserved (code : Byte) (reserved : Word) : Prop :=
  ∀ (c : Word) (s : State), c.extractLsb' 0 8 = code → c &&& reserved ≠ 0 →
    engineStep c s = .next { s with done := false, err := true, errCode := .illegalCmd, pending := none }

/-- The table of reset values of 70_reset_and_hazards.md R250. -/
structure State.HasResetValues (s : State) : Prop where
  rounds : s.sc.rounds = 20
  keyed : s.sc.keyed = false
  cipher_state : s.sc.state = none
  block_counter : s.sc.blockCounter = 0
  phase : s.mc.phase = .unkeyed
  kpad : s.mc.kpad = none
  ictx : s.mc.ictx = none
  ks : s.mc.ks = []
  hctx_H : s.hs.hctx.H.toList = [0x6a09e667, 0xbb67ae85, 0x3c6ef372, 0xa54ff53a, 0x510e527f, 0x9b05688c, 0x1f83d9ab, 0x5be0cd19]
  hctx_buf : s.hs.hctx.buf = []
  hctx_cnt : s.hs.hctx.cnt = 0
  pending : s.pending = none
  done : s.done = false
  err : s.err = false
  err_code : s.errCode = .ok
  status : s.statusWord = 0
  ctr_lo : s.ctrLo = 0
  ctr_hi : s.ctrHi = 0
  data : s.data.toList = List.replicate 64 0
  out : s.out.toList = List.replicate 64 0
  out_len : s.outLen = 0

end Sys2Proof.Machine
end

