-- ==== Sys2Proof/Certificates/Slice0/Obligations.lean ====
section
/-! DEFINITION. The statements about the model. Each docstring names the rule of the spec it formalises. No statement rests on the
reset values of the model's own fields `turns` and `rdata` (log entry 3). -/

open Sys2Proof Sys2Proof.Machine

/-! ## Encoding -/

/-- Every well-formed command is decoded back from its word, with every operand at every value its field admits
(30_encoding.md R82 to R89). -/
def Obligations.DecodeInvertsEncode : Prop :=
  ∀ i : Instr, i.WellFormed → decode (encode i) = .ok i

/-- A legal word is the word of the one command it decodes to, so no bit of it is dropped (30_encoding.md R82 to R89). -/
def Obligations.EncodeInvertsDecode : Prop :=
  ∀ (c : Word) (i : Instr), decode c = .ok i → i.WellFormed ∧ encode i = c

/-- 30_encoding.md R87: the opcode map, and a word decodes to the row for which `(cmd & mask) = match`. -/
def Obligations.DecodeFollowsOpcodeMap : Prop :=
  (Op.all.map fun o => (o.mnemonic, o.code, o.format, o.pattern, o.mask)) =
    [("SC_CONFIG", 0x10, .r, 0x00000010, 0x0000FFFF), ("SC_INIT", 0x11, .k, 0x00000011, 0xFF8080FF),
     ("SC_GET_BLOCK", 0x12, .n, 0x00000012, 0xFFFFFFFF), ("SC_GET_NEXT_BLOCK", 0x13, .n, 0x00000013, 0xFFFFFFFF),
     ("SC_GET_KEY", 0x14, .n, 0x00000014, 0xFFFFFFFF), ("SC_GET_NONCE", 0x15, .n, 0x00000015, 0xFFFFFFFF),
     ("SC_RESET", 0x16, .n, 0x00000016, 0xFFFFFFFF), ("MAC_KEY_APPEND", 0x20, .l, 0x00000020, 0xFFFF80FF),
     ("MAC_KEY_COMMIT", 0x21, .n, 0x00000021, 0xFFFFFFFF), ("MAC_UPDATE", 0x22, .l, 0x00000022, 0xFFFF80FF),
     ("MAC_FINALIZE", 0x23, .n, 0x00000023, 0xFFFFFFFF), ("MAC_FINALIZE_DATA", 0x24, .l, 0x00000024, 0xFFFF80FF),
     ("MAC_RESET", 0x25, .n, 0x00000025, 0xFFFFFFFF), ("HASH_RESET", 0x30, .n, 0x00000030, 0xFFFFFFFF),
     ("HASH_UPDATE", 0x31, .l, 0x00000031, 0xFFFF80FF), ("HASH_FINAL", 0x32, .n, 0x00000032, 0xFFFFFFFF)] ∧
  ∀ (c : Word) (o : Op), (∃ i, decode c = .ok i ∧ i.op = o) ↔ c &&& o.mask = o.pattern

/-- One word of each format and family, written out from the fields of R82 to R85, decodes to the command it stands for
(30_encoding.md R89). -/
def Obligations.SampleWordsDecode : Prop :=
  decode 0b00000000000101000000000000010000 = .ok (.scConfig 20) ∧
  decode 0b00000000000010000010000000010001 = .ok (.scInit 32 8) ∧
  decode 0b00000000000000000010101100100010 = .ok (.macUpdate 43) ∧
  decode 0b00000000000000000000000000010011 = .ok .scGetNextBlock ∧
  decode 0b00000000000000000000000000100011 = .ok .macFinalize ∧
  decode 0b00000000000000000000100000110001 = .ok (.hashUpdate 8)

/-- 30_encoding.md R88: which words are illegal, which opcodes are unassigned, and that an illegal word raises E_ILLEGAL_CMD and
changes no state other than STATUS. -/
def Obligations.IllegalWordsRaiseIllegalCmd : Prop :=
  ∀ c : Word,
    ((∃ r, decode c = .error r) ↔
      (¬∃ o : Op, o.code = c.extractLsb' 0 8) ∨ ∃ o : Op, o.code = c.extractLsb' 0 8 ∧ c &&& o.format.reserved ≠ 0) ∧
    ((¬∃ o : Op, o.code = c.extractLsb' 0 8) ↔
      (c.toNat % 256 ≤ 0x0F ∨ (0x17 ≤ c.toNat % 256 ∧ c.toNat % 256 ≤ 0x1F) ∨ (0x26 ≤ c.toNat % 256 ∧ c.toNat % 256 ≤ 0x2F) ∨
        0x33 ≤ c.toNat % 256)) ∧
    (∀ (r : Reject) (s : State), decode c = .error r →
      engineStep c s = .next { s with done := false, err := true, errCode := .illegalCmd, pending := none })

/-- The operands are the numbers in bits 31:16, 22:16 and 14:8 (30_encoding.md R86), and the word of a command is their sum at those
places with the opcode (R82 to R85, R89). -/
def Obligations.EncodingIsArithmetic : Prop :=
  (∀ r < 65536, (encode (.scConfig r)).toNat = r * 65536 + 0x10) ∧
  (∀ k < 128, ∀ n < 128, (encode (.scInit k n)).toNat = n * 65536 + k * 256 + 0x11) ∧
  (∀ n < 128, (encode (.macKeyAppend n)).toNat = n * 256 + 0x20 ∧ (encode (.macUpdate n)).toNat = n * 256 + 0x22 ∧
    (encode (.macFinalizeData n)).toNat = n * 256 + 0x24 ∧ (encode (.hashUpdate n)).toNat = n * 256 + 0x31) ∧
  (∀ i : Instr, i.operands = [] → (encode i).toNat = i.op.code.toNat)

/-! ## Reset, the invariant, the engine step -/

/-- 70_reset_and_hazards.md R250: the reset event gives every element its reset value, abandons a pending command and keeps
FAULT; the state right after reset has those values. -/
def Obligations.ResetEventGivesResetValues : Prop :=
  State.reset.HasResetValues ∧ State.reset.fault = { hostHazard := false, busAccess := false } ∧
  ∀ (s : State) (rest : List Turn), s.turns = .reset :: rest →
    ∃ t, step s = .next t ∧ t.HasResetValues ∧ t.fault = s.fault

/-- The state right after reset meets the invariant of 10_state.md R22 to R42. -/
def Obligations.ResetMeetsInvariant : Prop := State.reset.Inv

/-- Every step keeps the invariant: the rounds stay even and at least 2, `⊥` stands exactly where 10_state.md R24, R29 and R30 say,
the contexts stay well formed (R33), the latches exclusive (R36), OUT zero after OUT_LEN (R42). -/
def Obligations.StepKeepsInvariant : Prop :=
  ∀ s t : State, s.Inv → step s = .next t → t.Inv

/-- No step from a state that meets the invariant reads a `⊥` element (00_scope.md R13): the model's faults, which stand for such
reads (log entry 9), are never raised. -/
def Obligations.StepNeverReadsPoison : Prop :=
  ∀ (s : State) (f : Fault), s.Inv → step s ≠ .fault f

/-- At the engine's move, the step is the decoded command's `exec` in that state, with the turn used up; an illegal word raises
E_ILLEGAL_CMD (60_exceptions.md R221; the turns are log entry 1). -/
def Obligations.StepRunsDecodedCommand : Prop :=
  ∀ (s : State) (c : Word) (rest : List Turn), s.pending = some c → s.engineNext rest →
    (∀ i, decode c = .ok i → step s = exec i { s with turns := rest }) ∧
    (∀ r, decode c = .error r → step s =
      .next { s with turns := rest, done := false, err := true, errCode := .illegalCmd, pending := none })

/-- Every pending word leads to exactly one completion: DONE or ERR, never both, with nothing pending, and the host's registers,
FAULT and the coming turns as before (60_exceptions.md R221). -/
def Obligations.PendingCommandCompletesOnce : Prop :=
  ∀ (s : State) (c : Word) (rest : List Turn), s.Inv → s.pending = some c → s.engineNext rest →
    ∃ t, step s = .next t ∧ t.pending = none ∧ t.done = !t.err ∧ t.data = s.data ∧ t.ctrLo = s.ctrLo ∧ t.ctrHi = s.ctrHi ∧
      t.fault = s.fault ∧ t.turns = rest ∧ t.rdata = s.rdata

/-- 60_exceptions.md R223: a command that ends in an error sets DONE 0, ERR 1 and ERRCODE, and changes nothing else. -/
def Obligations.ErrorChangesOnlyStatus : Prop :=
  ∀ (i : Instr) (s t : State), exec i s = .next t → t.err = true →
    t = { s with done := false, err := true, errCode := t.errCode, pending := none } ∧ t.errCode.value ≠ 0

/-- 60_exceptions.md R222: a command that ends without an error sets DONE 1, ERR 0 and ERRCODE 0x00. -/
def Obligations.SuccessSetsDone : Prop :=
  ∀ (i : Instr) (s t : State), exec i s = .next t → t.err = false →
    t.done = true ∧ t.errCode.value = 0 ∧ t.pending = none

/-- 60_exceptions.md R225: exactly one error is reported, the first that applies in the order decode, operand values, unit state,
capacity; the values, the conditions and the raising commands are those of R224. -/
def Obligations.ErrorReportedIsFirstInOrder : Prop :=
  [ErrCode.ok, .illegalCmd, .len, .rounds, .keyLen, .nonceLen, .notInit, .misuse, .msgTooLong].map ErrCode.value =
    [0x00, 0x01, 0x02, 0x03, 0x04, 0x05, 0x06, 0x07, 0x08] ∧
  (∀ e : ErrCode, e.value.toNat ≤ 0x08) ∧
  ∀ (c : Word) (s : State), s.Inv → ∃ t, engineStep c s = .next t ∧ (t.err = true ↔ t.errCode ≠ .ok) ∧
    (∀ r, decode c = .error r → t.errCode = .illegalCmd) ∧ (∀ i, decode c = .ok i → t.errCode = firstError i s)

/-- 10_state.md R42: an output-producing command that succeeds writes its n result bytes to `OUT[0..n)`, zeros after them and n to
OUT_LEN; every other command, and a command that ends in an error, leaves OUT and OUT_LEN; host writes to OUT are ignored; the reset
value is 64 zero bytes with OUT_LEN = 0. -/
def Obligations.OutputWindowRule : Prop :=
  (∀ (i : Instr) (s t : State), exec i s = .next t →
    (∀ n, i.outBytes = some n → t.err = false →
      ∃ r : List Byte, r.length = n ∧ t.out.toList = r ++ List.replicate (64 - n) 0 ∧ t.outLen.toNat = n) ∧
    (i.outBytes = none ∨ t.err = true → t.out = s.out ∧ t.outLen = s.outLen)) ∧
  (∀ (s : State) (i : Fin 16) (v : Word), s.pending = none → WritesAs s (0x80 + 4 * i.val) v s) ∧
  State.reset.out.toList = List.replicate 64 0 ∧ State.reset.outLen = 0

/-- A command of one unit changes no state of another unit, only its own unit's state, OUT, OUT_LEN and STATUS; DATA is never changed
(70_reset_and_hazards.md R257, which the spec marks as its own inference: "derived: from the pseudocode of 40_salsa20.md,
41_hmac.md and 42_sha256.md"). -/
def Obligations.UnitsChangeNoOtherUnit : Prop :=
  ∀ (i : Instr) (s t : State), exec i s = .next t →
    (i.unit ≠ .sc → t.sc = s.sc) ∧ (i.unit ≠ .mc → t.mc = s.mc) ∧ (i.unit ≠ .hs → t.hs = s.hs) ∧
    t.data = s.data ∧ t.ctrLo = s.ctrLo ∧ t.ctrHi = s.ctrHi ∧ t.fault = s.fault ∧ t.turns = s.turns ∧ t.rdata = s.rdata

/-- What a command does is not influenced by another unit's state: with that state exchanged it does the same, and the exchanged
state stays (70_reset_and_hazards.md R257, as a comparison of two runs). -/
def Obligations.UnitsDoNotInfluenceEachOther : Prop :=
  ∀ (i : Instr) (s t : State), exec i s = .next t →
    (i.unit ≠ .sc → ∀ u, exec i { s with sc := u } = .next { t with sc := u }) ∧
    (i.unit ≠ .mc → ∀ u, exec i { s with mc := u } = .next { t with mc := u }) ∧
    (i.unit ≠ .hs → ∀ u, exec i { s with hs := u } = .next { t with hs := u })

/-! ## STATUS and the register window -/

/-- 10_state.md R35: the fields of STATUS, the reserved bits that read 0, the live views, that writes are ignored, and the reset
value. -/
def Obligations.StatusWordFields : Prop :=
  (∀ s : State,
    (s.statusWord.getLsbD 0 = true ↔ s.pending ≠ none) ∧ s.statusWord.getLsbD 1 = s.done ∧ s.statusWord.getLsbD 2 = s.err ∧
    s.statusWord.getLsbD 3 = false ∧ s.statusWord.getLsbD 4 = s.sc.keyed ∧
    (s.statusWord.getLsbD 5 = true ↔ s.mc.phase ≠ .unkeyed) ∧ (s.statusWord.getLsbD 6 = true ↔ s.mc.phase = .finalized) ∧
    s.statusWord.getLsbD 7 = false ∧ s.statusWord.extractLsb' 8 8 = s.errCode.value ∧
    s.statusWord.extractLsb' 16 7 = s.outLen ∧ s.statusWord.extractLsb' 23 9 = 0) ∧
  (∀ (s : State) (v : Word), s.pending = none → WritesAs s 0x04 v s) ∧ State.reset.statusWord = 0x00000000

/-- 20_memory.md R52: an access of another width than 32 bits, or at an offset that is not a multiple of 4, adds F_BUS_ACCESS and
has no other effect; a legal access does not add it. -/
def Obligations.IllegalAccessFaults : Prop :=
  ∀ (s : State) (a : Access) (rest : List Turn), s.turns = .host a :: rest →
    (a.width ≠ 4 ∨ a.off.toNat % 4 ≠ 0 →
      ∃ t, step s = .next t ∧ t.fault.busAccess = true ∧ (s.pending = none → t.fault.hostHazard = s.fault.hostHazard) ∧
        t = { s with turns := rest, fault := t.fault }) ∧
    (a.width = 4 → a.off.toNat % 4 = 0 → ∃ t, step s = .next t ∧ t.fault.busAccess = s.fault.busAccess)

/-- 70_reset_and_hazards.md R254: while BUSY = 1 a read of STATUS is permitted and returns it; any other access adds F_HOST_HAZARD
and has no other effect. -/
def Obligations.BusyAllowsOnlyStatusRead : Prop :=
  ∀ (s : State) (a : Access) (rest : List Turn), s.turns = .host a :: rest → s.pending ≠ none →
    (a = .read 0x04 4 → step s = .next { s with turns := rest, rdata := some s.statusWord }) ∧
    (a ≠ .read 0x04 4 →
      ∃ t, step s = .next t ∧ t.fault.hostHazard = true ∧ t = { s with turns := rest, fault := t.fault })

/-- 60_exceptions.md R220: a permitted write to CMD makes the word pending, clears DONE, ERR and ERRCODE, and changes nothing else;
BUSY then reads 1. -/
def Obligations.WriteToCmdIssues : Prop :=
  ∀ (s : State) (v : Word), s.pending = none →
    WritesAs s 0x00 v { s with pending := some v, done := false, err := false, errCode := .ok } ∧
    State.statusWord { s with pending := some v, done := false, err := false, errCode := .ok } &&& 1 = 1

/-- 20_memory.md R53: what a legal and permitted read returns at every offset of the window; it changes no state. -/
def Obligations.ReadsReturnRegisters : Prop :=
  ∀ s : State, s.pending = none →
    ReadsAs s 0x00 0 ∧ ReadsAs s 0x04 s.statusWord ∧ ReadsAs s 0x08 (s.sc.rounds.zeroExtend 32) ∧
    ReadsAs s 0x10 s.ctrLo ∧ ReadsAs s 0x14 s.ctrHi ∧
    ReadsAs s 0x18 (s.sc.blockCounter.extractLsb' 0 32) ∧ ReadsAs s 0x1C (s.sc.blockCounter.extractLsb' 32 32) ∧
    (∀ i : Fin 16, ReadsAs s (0x40 + 4 * i.val)
      (s.data[4 * i.val + 3] ++ s.data[4 * i.val + 2] ++ s.data[4 * i.val + 1] ++ s.data[4 * i.val])) ∧
    (∀ i : Fin 16, ReadsAs s (0x80 + 4 * i.val)
      (s.out[4 * i.val + 3] ++ s.out[4 * i.val + 2] ++ s.out[4 * i.val + 1] ++ s.out[4 * i.val])) ∧
    ReadsAs s 0x0C 0 ∧ (∀ i : Fin 8, ReadsAs s (0x20 + 4 * i.val) 0) ∧ (∀ i : Fin 16, ReadsAs s (0xC0 + 4 * i.val) 0)

/-- 20_memory.md R55: what a legal and permitted write does at every offset of the window. -/
def Obligations.WritesFollowRegisterMap : Prop :=
  ∀ (s : State) (v : Word), s.pending = none →
    WritesAs s 0x00 v { s with pending := some v, done := false, err := false, errCode := .ok } ∧
    WritesAs s 0x10 v { s with ctrLo := v } ∧ WritesAs s 0x14 v { s with ctrHi := v } ∧
    (∀ i : Fin 16, ∃ d : Vector Byte 64, WritesAs s (0x40 + 4 * i.val) v { s with data := d } ∧
      ∀ k : Fin 64, d[k] = if k.val / 4 = i.val then v.extractLsb' (8 * (k.val % 4)) 8 else s.data[k]) ∧
    WritesAs s 0x04 v s ∧ WritesAs s 0x08 v s ∧ WritesAs s 0x18 v s ∧ WritesAs s 0x1C v s ∧
    (∀ i : Fin 16, WritesAs s (0x80 + 4 * i.val) v s) ∧
    WritesAs s 0x0C v s ∧ (∀ i : Fin 8, WritesAs s (0x20 + 4 * i.val) v s) ∧ (∀ i : Fin 16, WritesAs s (0xC0 + 4 * i.val) v s)

/-- A word written to DATA is read back from the same offset, and the word at every other DATA offset reads as before
(20_memory.md R56). -/
def Obligations.DataWordReadsBack : Prop :=
  ∀ (s : State) (i j : Fin 16) (v : Word) (rest : List Turn), s.pending = none →
    s.turns = .host (.write (BitVec.ofNat 8 (0x40 + 4 * i.val)) 4 v) ::
      .host (.read (BitVec.ofNat 8 (0x40 + 4 * j.val)) 4) :: rest →
    ∃ t, core.run 2 s = .next t ∧ t.rdata = some (if j = i then v else s.readReg (.data j)) ∧ t.fault = s.fault

/-- 10_state.md R44: FAULT is empty at reset, a step adds to it and never removes from it, not even a reset event. -/
def Obligations.FaultSetOnlyGrows : Prop :=
  State.reset.fault = { hostHazard := false, busAccess := false } ∧
  ∀ s t : State, step s = .next t →
    (s.fault.hostHazard = true → t.fault.hostHazard = true) ∧ (s.fault.busAccess = true → t.fault.busAccess = true)

/-- Whatever the host tries between issue and the engine step, the command runs on the state as it stood at issue: only FAULT and
the last value read can differ, and FAULT has no F_HOST_HAZARD added if the host only read STATUS (70_reset_and_hazards.md R254,
R255; the turns are log entry 1). -/
def Obligations.HazardsDoNotReachTheCommand : Prop :=
  ∀ (accs : List Access) (s : State) (c : Word) (rest : List Turn), s.pending = some c →
    s.turns = accs.map .host ++ .engine :: rest →
    ∃ (f : FaultSet) (r : Option Word),
      core.run (accs.length + 1) s = engineStep c { s with turns := rest, fault := f, rdata := r } ∧
      f.hostHazard = (s.fault.hostHazard || accs.any (fun a => decide (a ≠ .read 0x04 4)))

/-- `DO c` (30_encoding.md R90) from an idle core, with any latency: the command's `exec` takes place, the last STATUS read shows
its completion, FAULT is as before, and the host's next turn is reached (60_exceptions.md R221, 20_memory.md R60; the turns are log
entry 1). -/
def Obligations.DoCommandRunsToCompletion : Prop :=
  ∀ (s : State) (i : Instr) (lat : Instr → Nat) (rest : List Turn), s.Inv → s.pending = none → i.WellFormed →
    s.turns = HostSequence.doCommand lat i ++ rest →
    ∃ u, exec i s = .next u ∧
      core.run (lat i + 3) s = .next { u with turns := rest, rdata := some u.statusWord } ∧
      u.pending = none ∧ u.errCode = firstError i s ∧ u.fault = s.fault

/-- With no command pending the engine has no enabled step (60_exceptions.md R234): its turn passes, and with no turn to come the run
has ended, which the model answers with a refusal (log entries 1 and 10). -/
def Obligations.IdleEngineHasNoStep : Prop :=
  ∀ s : State, s.pending = none →
    (s.turns = [] → step s = .refused .noEnabledStep) ∧
    (∀ rest, s.turns = .engine :: rest → step s = .next { s with turns := rest })

/-! ## Stream cipher unit -/

/-- 40_salsa20.md R112, SC_CONFIG. -/
def Obligations.ScConfigSetsRoundsAndDropsKey : Prop :=
  (∀ (r : Nat) (s : State), r < 65536 → r ≠ 0 → r % 2 = 0 → exec (.scConfig r) s = .next { s with
    sc := { rounds := BitVec.ofNat 16 r, keyed := false, state := none, blockCounter := 0 },
    done := true, err := false, errCode := .ok, pending := none }) ∧
  (∀ (r : Nat) (s : State), r < 65536 → r = 0 ∨ r % 2 = 1 → exec (.scConfig r) s = .next { s with
    done := false, err := true, errCode := .rounds, pending := none }) ∧
  RefusesReserved 0x10 0x0000FF00 ∧ DecodesAs 0x00000010 0x0000FFFF fun c => .scConfig (c.extractLsb' 16 16).toNat

/-- 40_salsa20.md R113, SC_INIT, with the layout of 10_state.md R25 and counter words 0 (R109). -/
def Obligations.ScInitLoadsKeyAndNonce : Prop :=
  (∀ (s : State) (key nonce : List Byte), key.length = 32 → nonce.length = 8 →
    (s.data.toList.take 40) = key ++ nonce → exec (.scInit 32 8) s = .next { s with
      sc := { s.sc with
        state := some #v[0x61707865, le32 key 0, le32 key 4, le32 key 8, le32 key 12, 0x3320646E, le32 nonce 0, le32 nonce 4,
          0, 0, 0x79622D32, le32 key 16, le32 key 20, le32 key 24, le32 key 28, 0x6B206574],
        blockCounter := 0, keyed := true },
      done := true, err := false, errCode := .ok, pending := none }) ∧
  (∀ (k n : Nat) (s : State), k < 128 → n < 128 → k ≠ 32 → exec (.scInit k n) s = .next { s with
    done := false, err := true, errCode := .keyLen, pending := none }) ∧
  (∀ (n : Nat) (s : State), n < 128 → n ≠ 8 → exec (.scInit 32 n) s = .next { s with
    done := false, err := true, errCode := .nonceLen, pending := none }) ∧
  RefusesReserved 0x11 0xFF808000 ∧ DecodesAs 0x00000011 0xFF8080FF fun c => .scInit (c.extractLsb' 8 7).toNat (c.extractLsb' 16 7).toNat

/-- 40_salsa20.md R114, SC_GET_BLOCK: CTR_LO is word 8 and CTR_HI word 9. -/
def Obligations.ScGetBlockEmitsBlockAtCtr : Prop :=
  (∀ (s : State) (st : Vector Word 16), s.sc.keyed = true → s.sc.state = some st →
    ∃ o : Vector Byte 64,
      o.toList = serialize (salsa20core ((st.set 8 s.ctrLo).set 9 s.ctrHi) s.sc.rounds.toNat) ∧
      exec .scGetBlock s = .next { s with
        sc := { s.sc with state := some ((st.set 8 s.ctrLo).set 9 s.ctrHi) }, out := o, outLen := 64,
        done := true, err := false, errCode := .ok, pending := none }) ∧
  (∀ s : State, s.sc.keyed = false → exec .scGetBlock s = .next { s with
    done := false, err := true, errCode := .notInit, pending := none }) ∧
  RefusesReserved 0x12 0xFFFFFF00 ∧ DecodesAs 0x00000012 0xFFFFFFFF fun _ => .scGetBlock

/-- 40_salsa20.md R115, SC_GET_NEXT_BLOCK: the counter is SC.blockCounter and it is incremented modulo 2^64. -/
def Obligations.ScGetNextBlockEmitsAndCounts : Prop :=
  (∀ (s : State) (st : Vector Word 16), s.sc.keyed = true → s.sc.state = some st →
    ∃ (o : Vector Byte 64) (st' : Vector Word 16),
      st' = (st.set 8 (s.sc.blockCounter.extractLsb' 0 32)).set 9 (s.sc.blockCounter.extractLsb' 32 32) ∧
      o.toList = serialize (salsa20core st' s.sc.rounds.toNat) ∧
      exec .scGetNextBlock s = .next { s with
        sc := { s.sc with state := some st', blockCounter := BitVec.ofNat 64 (s.sc.blockCounter.toNat + 1) },
        out := o, outLen := 64, done := true, err := false, errCode := .ok, pending := none }) ∧
  (∀ s : State, s.sc.keyed = false → exec .scGetNextBlock s = .next { s with
    done := false, err := true, errCode := .notInit, pending := none }) ∧
  RefusesReserved 0x13 0xFFFFFF00 ∧ DecodesAs 0x00000013 0xFFFFFFFF fun _ => .scGetNextBlock

/-- 40_salsa20.md R116, SC_GET_KEY. -/
def Obligations.ScGetKeyReadsKeyWords : Prop :=
  (∀ (s : State) (st : Vector Word 16), s.sc.keyed = true → s.sc.state = some st →
    ∃ o : Vector Byte 64,
      o.toList = le32bytes st[1] ++ le32bytes st[2] ++ le32bytes st[3] ++ le32bytes st[4] ++ le32bytes st[11] ++
        le32bytes st[12] ++ le32bytes st[13] ++ le32bytes st[14] ++ List.replicate 32 0 ∧
      exec .scGetKey s = .next { s with out := o, outLen := 32, done := true, err := false, errCode := .ok, pending := none }) ∧
  (∀ s : State, s.sc.keyed = false → exec .scGetKey s = .next { s with
    done := false, err := true, errCode := .notInit, pending := none }) ∧
  RefusesReserved 0x14 0xFFFFFF00 ∧ DecodesAs 0x00000014 0xFFFFFFFF fun _ => .scGetKey

/-- 40_salsa20.md R117, SC_GET_NONCE. -/
def Obligations.ScGetNonceReadsNonceWords : Prop :=
  (∀ (s : State) (st : Vector Word 16), s.sc.keyed = true → s.sc.state = some st →
    ∃ o : Vector Byte 64,
      o.toList = le32bytes st[6] ++ le32bytes st[7] ++ List.replicate 56 0 ∧
      exec .scGetNonce s = .next { s with out := o, outLen := 8, done := true, err := false, errCode := .ok, pending := none }) ∧
  (∀ s : State, s.sc.keyed = false → exec .scGetNonce s = .next { s with
    done := false, err := true, errCode := .notInit, pending := none }) ∧
  RefusesReserved 0x15 0xFFFFFF00 ∧ DecodesAs 0x00000015 0xFFFFFFFF fun _ => .scGetNonce

/-- 40_salsa20.md R118, SC_RESET: legal with or without a key. -/
def Obligations.ScResetZeroesCounter : Prop :=
  (∀ s : State, exec .scReset s = .next { s with
    sc := { s.sc with blockCounter := 0 }, done := true, err := false, errCode := .ok, pending := none }) ∧
  RefusesReserved 0x16 0xFFFFFF00 ∧ DecodesAs 0x00000016 0xFFFFFFFF fun _ => .scReset

/-- After a successful SC_INIT with key k and nonce n, and until the next SC_INIT or SC_CONFIG, SC_GET_KEY yields k and SC_GET_NONCE
yields n, whatever other commands run in between on whatever DATA and CTR (40_salsa20.md R119, which the spec marks as its own
inference: "derived: from rules R113 to R117"). -/
def Obligations.KeyAndNonceReadBack : Prop :=
  ∀ s t : State, s.Inv → exec (.scInit 32 8) s = .next t →
    ∀ cmds : List HostedCommand, (∀ h ∈ cmds, (∀ k n, h.cmd ≠ .scInit k n) ∧ ∀ r, h.cmd ≠ .scConfig r) →
      ∃ u v w, execHosted cmds t = .next u ∧
        exec .scGetKey u = .next v ∧ v.out.toList = s.data.toList.take 32 ++ List.replicate 32 0 ∧ v.outLen = 32 ∧
        exec .scGetNonce u = .next w ∧
        w.out.toList = (s.data.toList.drop 32).take 8 ++ List.replicate 56 0 ∧ w.outLen = 8

/-- The OUT of SC_GET_BLOCK is a function of the key, the nonce, the round count and CTR: two states that agree on those give the
same OUT (40_salsa20.md R120, which the spec marks as its own inference: "derived: from rules R111 and R114"). -/
def Obligations.BlockDependsOnlyOnKeyNonceRoundsCtr : Prop :=
  ∀ (s s' t t' : State) (st st' : Vector Word 16), s.Inv → s'.Inv → s.sc.state = some st → s'.sc.state = some st' →
    stateKey st = stateKey st' → stateNonce st = stateNonce st' → s.sc.rounds = s'.sc.rounds →
    s.ctrLo = s'.ctrLo → s.ctrHi = s'.ctrHi → exec .scGetBlock s = .next t → exec .scGetBlock s' = .next t' →
    t.out = t'.out ∧ t.out.toList =
      serialize (salsa20core (withCounter (initstate (stateKey st) (stateNonce st)) (s.ctrHi ++ s.ctrLo)) s.sc.rounds.toNat)

/-- From a keyed unit whose counter is 0 (after SC_INIT or SC_RESET), the next SC_GET_NEXT_BLOCK after k earlier ones gives the OUT
of SC_GET_BLOCK with CTR = k, whatever other commands but SC_INIT, SC_CONFIG and SC_RESET run in between (40_salsa20.md R121, which
the spec marks as its own inference: "derived: from rules R114 and R115"). -/
def Obligations.NextBlocksFollowGetBlock : Prop :=
  ∀ s : State, s.Inv → s.sc.keyed = true → s.sc.blockCounter = 0 →
    ∀ cmds : List HostedCommand,
      (∀ h ∈ cmds, (∀ k n, h.cmd ≠ .scInit k n) ∧ (∀ r, h.cmd ≠ .scConfig r) ∧ h.cmd ≠ .scReset) →
      ∃ t u v, execHosted cmds s = .next t ∧ exec .scGetNextBlock t = .next u ∧
        exec .scGetBlock { s with
          ctrLo := BitVec.ofNat 32 (cmds.countP (fun h => decide (h.cmd = .scGetNextBlock))),
          ctrHi := BitVec.ofNat 32 (cmds.countP (fun h => decide (h.cmd = .scGetNextBlock)) / 2 ^ 32) } = .next v ∧
        u.out = v.out

/-- The core keeps the zero array, for every round count (the example of 40_salsa20.md R107, which the spec marks as its own
inference: "derived: from rule R102 and this rule"). -/
def Obligations.ZeroArrayIsFixedByCore : Prop :=
  ∀ r : Nat, salsa20core (Vector.replicate 16 0) r = Vector.replicate 16 0

/-- Quarter-rounds on disjoint index groups commute, so the order of the four groups of a pass does not change the result
(40_salsa20.md R103 to R105). -/
def Obligations.DisjointQuarterRoundsCommute : Prop :=
  ∀ (a0 a1 a2 a3 b0 b1 b2 b3 : Fin 16) (x : Vector Word 16),
    (∀ a ∈ [a0, a1, a2, a3], ∀ b ∈ [b0, b1, b2, b3], a ≠ b) →
    quarterAt a0 a1 a2 a3 (quarterAt b0 b1 b2 b3 x) = quarterAt b0 b1 b2 b3 (quarterAt a0 a1 a2 a3 x)

/-- 20_memory.md R63: `le32` and `le32bytes`, and that they undo each other. -/
def Obligations.LittleEndianConversions : Prop :=
  (∀ (s : List Byte) (i : Nat) (h : i + 3 < s.length),
    le32 s i = s[i].zeroExtend 32 ||| (s[i + 1].zeroExtend 32 <<< 8) ||| (s[i + 2].zeroExtend 32 <<< 16) |||
      (s[i + 3].zeroExtend 32 <<< 24) ∧
    le32bytes (le32 s i) = [s[i], s[i + 1], s[i + 2], s[i + 3]]) ∧
  (∀ w : Word, (le32bytes w).map BitVec.toNat =
      [w.toNat % 256, w.toNat / 256 % 256, w.toNat / 65536 % 256, w.toNat / 16777216 % 256] ∧ le32 (le32bytes w) 0 = w)

/-! ## MAC unit -/

/-- 41_hmac.md R155, MAC_KEY_APPEND. -/
def Obligations.MacKeyAppendStagesBytes : Prop :=
  (∀ (n : Nat) (s : State), n ≤ 64 → s.mc.ks.length + n ≤ 2 ^ 61 - 1 → exec (.macKeyAppend n) s = .next { s with
    mc := { s.mc with ks := s.mc.ks ++ s.data.toList.take n }, done := true, err := false, errCode := .ok, pending := none }) ∧
  (∀ (n : Nat) (s : State), 64 < n → exec (.macKeyAppend n) s = .next { s with
    done := false, err := true, errCode := .len, pending := none }) ∧
  (∀ (n : Nat) (s : State), n ≤ 64 → 2 ^ 61 - 1 < s.mc.ks.length + n → exec (.macKeyAppend n) s = .next { s with
    done := false, err := true, errCode := .msgTooLong, pending := none }) ∧
  RefusesReserved 0x20 0xFFFF8000 ∧ DecodesAs 0x00000020 0xFFFF80FF fun c => .macKeyAppend (c.extractLsb' 8 7).toNat

/-- 41_hmac.md R156, MAC_KEY_COMMIT. -/
def Obligations.MacKeyCommitPrimesInnerHash : Prop :=
  (∀ s : State, exec .macKeyCommit s = .next { s with
    mc := { phase := .ready, kpad := some (normkey s.mc.ks),
            ictx := some (absorb shaInit ((normkey s.mc.ks).toList.map (· ^^^ 0x36))), ks := [] },
    done := true, err := false, errCode := .ok, pending := none }) ∧
  RefusesReserved 0x21 0xFFFFFF00 ∧ DecodesAs 0x00000021 0xFFFFFFFF fun _ => .macKeyCommit

/-- 41_hmac.md R157, MAC_UPDATE. -/
def Obligations.MacUpdateAbsorbsData : Prop :=
  (∀ (n : Nat) (s : State) (c : ShaContext), n ≤ 64 → s.mc.phase = .ready → s.mc.ictx = some c → c.cnt + n ≤ 2 ^ 61 - 1 →
    exec (.macUpdate n) s = .next { s with
      mc := { s.mc with ictx := some (absorb c (s.data.toList.take n)) },
      done := true, err := false, errCode := .ok, pending := none }) ∧
  (∀ (n : Nat) (s : State), 64 < n → exec (.macUpdate n) s = .next { s with
    done := false, err := true, errCode := .len, pending := none }) ∧
  (∀ (n : Nat) (s : State), n ≤ 64 → s.mc.phase = .unkeyed → exec (.macUpdate n) s = .next { s with
    done := false, err := true, errCode := .notInit, pending := none }) ∧
  (∀ (n : Nat) (s : State), n ≤ 64 → s.mc.phase = .finalized → exec (.macUpdate n) s = .next { s with
    done := false, err := true, errCode := .misuse, pending := none }) ∧
  (∀ (n : Nat) (s : State) (c : ShaContext), n ≤ 64 → s.mc.phase = .ready → s.mc.ictx = some c → 2 ^ 61 - 1 < c.cnt + n →
    exec (.macUpdate n) s = .next { s with done := false, err := true, errCode := .msgTooLong, pending := none }) ∧
  RefusesReserved 0x22 0xFFFF8000 ∧ DecodesAs 0x00000022 0xFFFF80FF fun c => .macUpdate (c.extractLsb' 8 7).toNat

/-- 41_hmac.md R158, MAC_FINALIZE. -/
def Obligations.MacFinalizeEmitsTag : Prop :=
  (∀ (s : State) (c : ShaContext) (kp : Vector Byte 64), s.mc.phase = .ready → s.mc.ictx = some c → s.mc.kpad = some kp →
    ∃ o : Vector Byte 64,
      o.toList = sha256 (kp.toList.map (· ^^^ 0x5C) ++ sha256final c) ++ List.replicate 32 0 ∧
      exec .macFinalize s = .next { s with
        mc := { s.mc with ictx := none, phase := .finalized }, out := o, outLen := 32,
        done := true, err := false, errCode := .ok, pending := none }) ∧
  (∀ s : State, s.mc.phase = .unkeyed → exec .macFinalize s = .next { s with
    done := false, err := true, errCode := .notInit, pending := none }) ∧
  (∀ s : State, s.mc.phase = .finalized → exec .macFinalize s = .next { s with
    done := false, err := true, errCode := .misuse, pending := none }) ∧
  RefusesReserved 0x23 0xFFFFFF00 ∧ DecodesAs 0x00000023 0xFFFFFFFF fun _ => .macFinalize

/-- 41_hmac.md R159, MAC_FINALIZE_DATA. -/
def Obligations.MacFinalizeDataAbsorbsAndEmitsTag : Prop :=
  (∀ (n : Nat) (s : State) (c : ShaContext) (kp : Vector Byte 64), n ≤ 64 → s.mc.phase = .ready → s.mc.ictx = some c →
    s.mc.kpad = some kp → c.cnt + n ≤ 2 ^ 61 - 1 →
    ∃ o : Vector Byte 64,
      o.toList = sha256 (kp.toList.map (· ^^^ 0x5C) ++ sha256final (absorb c (s.data.toList.take n))) ++ List.replicate 32 0 ∧
      exec (.macFinalizeData n) s = .next { s with
        mc := { s.mc with ictx := none, phase := .finalized }, out := o, outLen := 32,
        done := true, err := false, errCode := .ok, pending := none }) ∧
  (∀ (n : Nat) (s : State), 64 < n → exec (.macFinalizeData n) s = .next { s with
    done := false, err := true, errCode := .len, pending := none }) ∧
  (∀ (n : Nat) (s : State), n ≤ 64 → s.mc.phase = .unkeyed → exec (.macFinalizeData n) s = .next { s with
    done := false, err := true, errCode := .notInit, pending := none }) ∧
  (∀ (n : Nat) (s : State), n ≤ 64 → s.mc.phase = .finalized → exec (.macFinalizeData n) s = .next { s with
    done := false, err := true, errCode := .misuse, pending := none }) ∧
  (∀ (n : Nat) (s : State) (c : ShaContext), n ≤ 64 → s.mc.phase = .ready → s.mc.ictx = some c → 2 ^ 61 - 1 < c.cnt + n →
    exec (.macFinalizeData n) s = .next { s with done := false, err := true, errCode := .msgTooLong, pending := none }) ∧
  RefusesReserved 0x24 0xFFFF8000 ∧ DecodesAs 0x00000024 0xFFFF80FF fun c => .macFinalizeData (c.extractLsb' 8 7).toNat

/-- 41_hmac.md R160, MAC_RESET. -/
def Obligations.MacResetPrimesInnerHash : Prop :=
  (∀ (s : State) (kp : Vector Byte 64), s.mc.phase ≠ .unkeyed → s.mc.kpad = some kp → exec .macReset s = .next { s with
    mc := { s.mc with ictx := some (absorb shaInit (kp.toList.map (· ^^^ 0x36))), phase := .ready },
    done := true, err := false, errCode := .ok, pending := none }) ∧
  (∀ s : State, s.mc.phase = .unkeyed → exec .macReset s = .next { s with
    done := false, err := true, errCode := .notInit, pending := none }) ∧
  RefusesReserved 0x25 0xFFFFFF00 ∧ DecodesAs 0x00000025 0xFFFFFFFF fun _ => .macReset

/-- 41_hmac.md R154: the table of phases and transitions. A LEN above 64 and a message or staged key beyond the limit are the errors
of R155 to R159 and stand outside the table. -/
def Obligations.MacPhaseTable : Prop :=
  ∀ s : State, s.Inv →
    (∀ n, ∃ t, exec (.macKeyAppend n) s = .next t ∧ t.mc.phase = s.mc.phase) ∧
    (∃ t, exec .macKeyCommit s = .next t ∧ t.err = false ∧ t.mc.phase = .ready) ∧
    (∀ i : Instr, (i = .macFinalize ∨ i = .macReset ∨ ∃ n ≤ 64, i = .macUpdate n ∨ i = .macFinalizeData n) →
      s.mc.phase = .unkeyed →
      exec i s = .next { s with done := false, err := true, errCode := .notInit, pending := none }) ∧
    (∀ i : Instr, (i = .macFinalize ∨ ∃ n ≤ 64, i = .macUpdate n ∨ i = .macFinalizeData n) → s.mc.phase = .finalized →
      exec i s = .next { s with done := false, err := true, errCode := .misuse, pending := none }) ∧
    (s.mc.phase = .finalized → ∃ t, exec .macReset s = .next t ∧ t.err = false ∧ t.mc.phase = .ready) ∧
    (s.mc.phase = .ready →
      (∃ t, exec .macReset s = .next t ∧ t.err = false ∧ t.mc.phase = .ready) ∧
      (∃ t, exec .macFinalize s = .next t ∧ t.err = false ∧ t.mc.phase = .finalized) ∧
      ∀ n ≤ 64, (∀ c, s.mc.ictx = some c → c.cnt + n ≤ 2 ^ 61 - 1) →
        (∃ t, exec (.macUpdate n) s = .next t ∧ t.err = false ∧ t.mc.phase = .ready) ∧
        (∃ t, exec (.macFinalizeData n) s = .next t ∧ t.err = false ∧ t.mc.phase = .finalized))

/-- From a commit of key K, or a MAC_RESET under key K, and with no other commit, MAC_RESET or finalize since, MC.ictx is
`absorb(SHA256_INIT, ikey ++ M)` for the bytes M of the successful MAC_UPDATEs, whatever other commands run in between, and a
MAC_FINALIZE then yields `HMAC(K, M)` (41_hmac.md R161, which the spec marks as its own inference: "derived: from rules R156, R157,
R158, R160 and 42_sha256.md rule R189"). -/
def Obligations.InnerStateYieldsHmac : Prop :=
  ∀ (s t : State) (key : List Byte) (cmds : List HostedCommand), s.Inv →
    ((exec .macKeyCommit s = .next t ∧ key = s.mc.ks) ∨
      (exec .macReset s = .next t ∧ s.mc.phase ≠ .unkeyed ∧ s.mc.kpad = some (normkey key))) →
    (∀ h ∈ cmds, h.cmd.WellFormed ∧ h.cmd ≠ .macKeyCommit ∧ h.cmd ≠ .macReset ∧ h.cmd ≠ .macFinalize ∧
      ∀ n, h.cmd ≠ .macFinalizeData n) →
    64 + (cmds.flatMap HostedCommand.macBytes).length ≤ 2 ^ 61 - 1 →
    ∃ u v, execHosted cmds t = .next u ∧ u.mc.phase = .ready ∧
      u.mc.ictx = some (absorb shaInit (xorPad (normkey key) 0x36 ++ cmds.flatMap HostedCommand.macBytes)) ∧
      exec .macFinalize u = .next v ∧
      v.out.toList = hmac key (cmds.flatMap HostedCommand.macBytes) ++ List.replicate 32 0 ∧ v.outLen = 32

/-- Incremental and bulk input agree, any two splits of a message give the same tag, and from a primed context a finalize of m,
MAC_RESET and a finalize of m again give the same tag twice (41_hmac.md R162, which the spec marks as its own inference: "derived:
from rule R161"). -/
def Obligations.MacSplitsAndRepeatsAgree : Prop :=
  (∀ (s : State) (a b : List Byte) (c : ShaContext), s.Inv → s.mc.phase = .ready → s.mc.ictx = some c →
    (a ++ b).length ≤ 64 → c.cnt + (a ++ b).length ≤ 2 ^ 61 - 1 →
    ∃ u v w, feedChunks .macUpdate [a, b] s = .next u ∧ exec .macFinalize u = .next v ∧
      exec (.macFinalizeData (a ++ b).length) (s.loaded (a ++ b)) = .next w ∧ v.out = w.out ∧ v.outLen = w.outLen) ∧
  (∀ (s : State) (xs ys : List (List Byte)) (c : ShaContext), s.Inv → s.mc.phase = .ready → s.mc.ictx = some c →
    (∀ b ∈ xs, b.length ≤ 64) → (∀ b ∈ ys, b.length ≤ 64) → xs.flatten = ys.flatten →
    c.cnt + xs.flatten.length ≤ 2 ^ 61 - 1 →
    ∃ u u' v v', feedChunks .macUpdate xs s = .next u ∧ exec .macFinalize u = .next v ∧
      feedChunks .macUpdate ys s = .next u' ∧ exec .macFinalize u' = .next v' ∧ v.out = v'.out) ∧
  (∀ (s : State) (kp : Vector Byte 64) (xs : List (List Byte)), s.mc.phase = .ready → s.mc.kpad = some kp →
    s.mc.ictx = some (absorb shaInit (xorPad kp 0x36)) → (∀ b ∈ xs, b.length ≤ 64) → 64 + xs.flatten.length ≤ 2 ^ 61 - 1 →
    ∃ u v t' u' v', feedChunks .macUpdate xs s = .next u ∧ exec .macFinalize u = .next v ∧ exec .macReset v = .next t' ∧
      feedChunks .macUpdate xs t' = .next u' ∧ exec .macFinalize u' = .next v' ∧ v.out = v'.out)

/-- A key delivered in chunks with MAC_KEY_APPEND and then committed is normalised as one key, and until the commit the current key,
phase and message are untouched (41_hmac.md R155, R156; 30_encoding.md R90, `MAC_NEW`). -/
def Obligations.StagedChunksFormOneKey : Prop :=
  ∀ (s : State) (chunks : List (List Byte)), (∀ b ∈ chunks, b.length ≤ 64) →
    s.mc.ks.length + chunks.flatten.length ≤ 2 ^ 61 - 1 →
    ∃ u v, feedChunks .macKeyAppend chunks s = .next u ∧
      u.mc = { s.mc with ks := s.mc.ks ++ chunks.flatten } ∧
      exec .macKeyCommit u = .next v ∧ v.mc.kpad = some (normkey (s.mc.ks ++ chunks.flatten)) ∧ v.mc.ks = [] ∧
      v.mc.phase = .ready

/-- 41_hmac.md R151: a longer key is replaced by its hash, then zero bytes are added to 64; a key of exactly 64 bytes is used as it
is. -/
def Obligations.NormalisedKeyCases : Prop :=
  ∀ k : List Byte,
    (64 < k.length → (normkey k).toList = sha256 k ++ List.replicate 32 0 ∧ (sha256 k).length = 32) ∧
    (k.length ≤ 64 → (normkey k).toList = k ++ List.replicate (64 - k.length) 0)

/-! ## Hash unit -/

/-- 42_sha256.md R191, HASH_RESET. -/
def Obligations.HashResetStartsNewHash : Prop :=
  (∀ s : State, exec .hashReset s = .next { s with
    hs := { hctx := shaInit }, done := true, err := false, errCode := .ok, pending := none }) ∧
  RefusesReserved 0x30 0xFFFFFF00 ∧ DecodesAs 0x00000030 0xFFFFFFFF fun _ => .hashReset

/-- 42_sha256.md R192, HASH_UPDATE. -/
def Obligations.HashUpdateAbsorbsData : Prop :=
  (∀ (n : Nat) (s : State), n ≤ 64 → s.hs.hctx.cnt + n ≤ 2 ^ 61 - 1 → exec (.hashUpdate n) s = .next { s with
    hs := { hctx := absorb s.hs.hctx (s.data.toList.take n) }, done := true, err := false, errCode := .ok, pending := none }) ∧
  (∀ (n : Nat) (s : State), 64 < n → exec (.hashUpdate n) s = .next { s with
    done := false, err := true, errCode := .len, pending := none }) ∧
  (∀ (n : Nat) (s : State), n ≤ 64 → 2 ^ 61 - 1 < s.hs.hctx.cnt + n → exec (.hashUpdate n) s = .next { s with
    done := false, err := true, errCode := .msgTooLong, pending := none }) ∧
  RefusesReserved 0x31 0xFFFF8000 ∧ DecodesAs 0x00000031 0xFFFF80FF fun c => .hashUpdate (c.extractLsb' 8 7).toNat

/-- 42_sha256.md R193, HASH_FINAL. -/
def Obligations.HashFinalEmitsDigest : Prop :=
  (∀ s : State, ∃ o : Vector Byte 64, o.toList = sha256final s.hs.hctx ++ List.replicate 32 0 ∧
    exec .hashFinal s = .next { s with
      hs := { hctx := shaInit }, out := o, outLen := 32, done := true, err := false, errCode := .ok, pending := none }) ∧
  RefusesReserved 0x32 0xFFFFFF00 ∧ DecodesAs 0x00000032 0xFFFFFFFF fun _ => .hashFinal

/-- HASH_RESET, HASH_UPDATE of any chunks, HASH_FINAL give the SHA-256 digest of the whole message and leave a fresh context
(42_sha256.md R187, R189, R191 to R193; 30_encoding.md R90, `HASH`). -/
def Obligations.HashOfChunksIsDigest : Prop :=
  ∀ (s : State) (chunks : List (List Byte)), (∀ b ∈ chunks, b.length ≤ 64) → chunks.flatten.length ≤ 2 ^ 61 - 1 →
    ∃ t u v, exec .hashReset s = .next t ∧ feedChunks .hashUpdate chunks t = .next u ∧ exec .hashFinal u = .next v ∧
      v.out.toList = sha256 chunks.flatten ++ List.replicate 32 0 ∧ v.outLen = 32 ∧ v.hs.hctx = shaInit

/-- Finalising pads the message to whole blocks: no byte is left in the buffer and the digest has 32 bytes (42_sha256.md R188). -/
def Obligations.ShaFinalPadsToWholeBlocks : Prop :=
  ∀ c : ShaContext, c.Wf →
    (absorb c (shaPad c.cnt)).buf = [] ∧ (c.cnt + (shaPad c.cnt).length) % 64 = 0 ∧ (sha256final c).length = 32

/-- Absorbing keeps a context well formed while the length limit holds, counts the bytes, and depends only on the concatenation of
the bytes fed (42_sha256.md R187, R190; 10_state.md R33). -/
def Obligations.AbsorbKeepsContext : Prop :=
  ∀ (c : ShaContext) (a b : List Byte), c.Wf → c.cnt + a.length + b.length ≤ 2 ^ 61 - 1 →
    (absorb c (a ++ b)).Wf ∧ (absorb c (a ++ b)).cnt = c.cnt + a.length + b.length ∧
    absorb (absorb c a) b = absorb c (a ++ b)
end

