-- ==== Sys2Proof/Laws/Bytes.lean ====
section
/-! SUPPORT. Laws of byte sequences, of the word conversions and of the 64-byte windows. -/

namespace Sys2Proof.Machine

@[simp] theorem zeros_length (n : Nat) : (zeros n).length = n := by simp [zeros]

@[simp] theorem le32bytes_length (w : Word) : (le32bytes w).length = 4 := rfl

@[simp] theorem be32bytes_length (w : Word) : (be32bytes w).length = 4 := rfl

@[simp] theorem be64bytes_length (v : BitVec 64) : (be64bytes v).length = 8 := rfl

/-- Four bytes of a word, concatenated again, are the word. -/
theorem append_extract_bytes (w : Word) :
    w.extractLsb' 24 8 ++ w.extractLsb' 16 8 ++ w.extractLsb' 8 8 ++ w.extractLsb' 0 8 = w := by
  ext i hi
  simp
  grind

/-- Reading back the little-endian bytes of a word gives the word (20_memory.md R63). -/
@[simp] theorem le32_le32bytes (w : Word) : le32 (le32bytes w) 0 = w := append_extract_bytes w

/-- Reading back the big-endian bytes of a word gives the word (42_sha256.md R180). -/
@[simp] theorem be32_be32bytes (w : Word) : be32 (be32bytes w) 0 = w := append_extract_bytes w

theorem extract_append_bytes (a b c d : Byte) :
    (a ++ b ++ c ++ d : BitVec 32).extractLsb' 0 8 = d ∧ (a ++ b ++ c ++ d : BitVec 32).extractLsb' 8 8 = c ∧
    (a ++ b ++ c ++ d : BitVec 32).extractLsb' 16 8 = b ∧ (a ++ b ++ c ++ d : BitVec 32).extractLsb' 24 8 = a := by
  refine ⟨?_, ?_, ?_, ?_⟩ <;> ext i hi <;> simp <;> grind

/-- The little-endian bytes of a word read from four bytes are those four bytes (20_memory.md R63). -/
theorem le32bytes_le32 (s : List Byte) (i : Nat) (h : i + 4 ≤ s.length) : le32bytes (le32 s i) = slice s i 4 := by
  obtain ⟨h0, h1, h2, h3⟩ :=
    extract_append_bytes (s.getD (i + 3) 0) (s.getD (i + 2) 0) (s.getD (i + 1) 0) (s.getD i 0)
  have e : slice s i 4 = [s.getD i 0, s.getD (i + 1) 0, s.getD (i + 2) 0, s.getD (i + 3) 0] := by
    apply List.ext_getElem
    · simp [slice]; omega
    · intro n h1 h2
      have hn : n < 4 := h2
      simp only [slice, List.getElem_take, List.getElem_drop]
      rcases n with _ | _ | _ | _ | n
      all_goals first | omega | simp [List.getD_eq_getElem?_getD, show i + 3 < s.length by omega, show i + 2 < s.length by omega, show i + 1 < s.length by omega, show i < s.length by omega]
  rw [e]
  exact congrArg₂ _ h0 (congrArg₂ _ h1 (congrArg₂ _ h2 (congrArg₂ _ h3 rfl)))

theorem slice_length (s : List Byte) (a n : Nat) (h : a + n ≤ s.length) : (slice s a n).length = n := by
  simp [slice]; omega

theorem slice_zero (s : List Byte) (n : Nat) : slice s 0 n = s.take n := by simp [slice]

theorem slice_append (s : List Byte) (a m n : Nat) : slice s a m ++ slice s (a + m) n = slice s a (m + n) := by
  simp only [slice]
  rw [show s.drop (a + m) = (s.drop a).drop m by rw [List.drop_drop], ← List.take_add]

/-- A result of at most 64 bytes stands in the window followed by zeros (10_state.md R42, 41_hmac.md R151). -/
theorem block64_toList (s : List Byte) (h : s.length ≤ 64) : (block64 s).toList = s ++ zeros (64 - s.length) := by
  show ((s ++ zeros 64).take 64) = _
  rw [List.take_append, List.take_of_length_le h, zeros, zeros, List.take_replicate,
    Nat.min_eq_left (Nat.sub_le 64 _)]

theorem dataSlice_length (s : State) (a n : Nat) (h : a + n ≤ 64) : (s.dataSlice a n).length = n :=
  slice_length _ _ _ (by simpa using h)

theorem dataBytes_length (s : State) (n : Nat) (h : n ≤ 64) : (s.dataBytes n).length = n :=
  dataSlice_length s 0 n (by omega)

/-- A command whose length is that of the bytes the host has loaded reads exactly those bytes. -/
@[simp] theorem dataBytes_loaded (s : State) (b : List Byte) (h : b.length ≤ 64) :
    (s.loaded b).dataBytes b.length = b := by
  show ((block64 b).toList.drop 0).take b.length = b
  simp [block64_toList b h]

end Sys2Proof.Machine
end

