-- ==== Sys2Proof/Laws/Salsa20.lean ====
section
/-! SUPPORT. Laws of the Salsa20 functions: lengths of the results, what is read back from an input block, what the counter words
leave alone, and the zero fixed point of the core. -/

namespace Sys2Proof.Machine

@[simp] theorem serialize_length (w : Vector Word 16) : (serialize w).length = 64 := by
  simp [serialize]

@[simp] theorem salsablock_length (st : Vector Word 16) (ctr : BitVec 64) (r : Nat) :
    (salsablock st ctr r).length = 64 := serialize_length _

@[simp] theorem stateKey_length (st : Vector Word 16) : (stateKey st).length = 32 := rfl

@[simp] theorem stateNonce_length (st : Vector Word 16) : (stateNonce st).length = 8 := rfl

/-- The key read from an input block is the key it was built from (40_salsa20.md R119). -/
theorem stateKey_initstate (key nonce : List Byte) (h : key.length = 32) : stateKey (initstate key nonce) = key := by
  show le32bytes (le32 key 0) ++ (le32bytes (le32 key 4) ++ (le32bytes (le32 key 8) ++ (le32bytes (le32 key 12) ++
    (le32bytes (le32 key 16) ++ (le32bytes (le32 key 20) ++ (le32bytes (le32 key 24) ++ (le32bytes (le32 key 28) ++ []))))))) = key
  rw [le32bytes_le32 key 0 (by omega), le32bytes_le32 key 4 (by omega), le32bytes_le32 key 8 (by omega),
    le32bytes_le32 key 12 (by omega), le32bytes_le32 key 16 (by omega), le32bytes_le32 key 20 (by omega),
    le32bytes_le32 key 24 (by omega), le32bytes_le32 key 28 (by omega), List.append_nil]
  have e (a m n) (hm : a + m = n) : slice key a m ++ key.drop n = key.drop a := by
    subst hm; simp only [slice]; rw [← List.drop_drop, List.take_append_drop]
  have z : slice key 28 4 = key.drop 28 := List.take_of_length_le (by simp [h])
  rw [z, e 24 4 28 rfl, e 20 4 24 rfl, e 16 4 20 rfl, e 12 4 16 rfl, e 8 4 12 rfl, e 4 4 8 rfl, e 0 4 4 rfl, List.drop_zero]

/-- The nonce read from an input block is the nonce it was built from (40_salsa20.md R119). -/
theorem stateNonce_initstate (key nonce : List Byte) (h : nonce.length = 8) :
    stateNonce (initstate key nonce) = nonce := by
  show le32bytes (le32 nonce 0) ++ (le32bytes (le32 nonce 4) ++ []) = nonce
  rw [le32bytes_le32 nonce 0 (by omega), le32bytes_le32 nonce 4 (by omega), List.append_nil, slice_append nonce 0 4 4,
    slice_zero]
  exact List.take_of_length_le (by omega)

theorem initstate_constants (key nonce : List Byte) : HasConstants (initstate key nonce) := ⟨rfl, rfl, rfl, rfl⟩

/-- The counter stands in words 8 and 9 and no other word is changed (40_salsa20.md R111). -/
theorem withCounter_getElem (st : Vector Word 16) (ctr : BitVec 64) (i : Nat) (h : i < 16) :
    (withCounter st ctr)[i] =
      if i = 8 then ctr.extractLsb' 0 32 else if i = 9 then ctr.extractLsb' 32 32 else st[i] := by
  unfold withCounter
  rw [Vector.getElem_set, Vector.getElem_set]
  grind

theorem stateKey_withCounter (st : Vector Word 16) (ctr : BitVec 64) : stateKey (withCounter st ctr) = stateKey st := by
  simp [stateKey, withCounter_getElem]

theorem stateNonce_withCounter (st : Vector Word 16) (ctr : BitVec 64) :
    stateNonce (withCounter st ctr) = stateNonce st := by
  simp [stateNonce, withCounter_getElem]

theorem withCounter_constants (st : Vector Word 16) (ctr : BitVec 64) (h : HasConstants st) :
    HasConstants (withCounter st ctr) := by
  simpa [HasConstants, withCounter_getElem] using h

/-- Only the last counter written stays (40_salsa20.md R114). -/
@[simp] theorem withCounter_withCounter (st : Vector Word 16) (a b : BitVec 64) :
    withCounter (withCounter st a) b = withCounter st b := by
  ext i h
  simp only [withCounter_getElem]
  split <;> [rfl; split <;> [rfl; rfl]]

/-- A block does not depend on the counter words the state held before (40_salsa20.md R120). -/
@[simp] theorem salsablock_withCounter (st : Vector Word 16) (a b : BitVec 64) (r : Nat) :
    salsablock (withCounter st a) b r = salsablock st b r := by
  simp [salsablock]

/-- A quarter-round changes no word outside its group (40_salsa20.md R103). -/
theorem quarterAt_getElem_of_ne (i0 i1 i2 i3 : Fin 16) (x : Vector Word 16) (j : Nat) (h : j < 16)
    (h0 : i0.val ≠ j) (h1 : i1.val ≠ j) (h2 : i2.val ≠ j) (h3 : i3.val ≠ j) :
    (quarterAt i0 i1 i2 i3 x)[j] = x[j] := by
  simp [quarterAt, h0, h1, h2, h3]

/-- The words after a quarter-round at an index group: a later index of the group wins over an equal earlier one (40_salsa20.md
R103). -/
theorem quarterAt_getElem (i0 i1 i2 i3 : Fin 16) (x : Vector Word 16) (j : Nat) (h : j < 16) :
    (quarterAt i0 i1 i2 i3 x)[j] =
      if i3.val = j then (quarterround x[i0] x[i1] x[i2] x[i3]).2.2.2
      else if i2.val = j then (quarterround x[i0] x[i1] x[i2] x[i3]).2.2.1
      else if i1.val = j then (quarterround x[i0] x[i1] x[i2] x[i3]).2.1
      else if i0.val = j then (quarterround x[i0] x[i1] x[i2] x[i3]).1 else x[j] := by
  simp only [quarterAt, Vector.getElem_set]

theorem doubleround_zero : doubleround (Vector.replicate 16 0) = Vector.replicate 16 0 := by decide +kernel

end Sys2Proof.Machine
end

