-- ==== Sys2Proof/Laws/Sha256.lean ====
section
/-! SUPPORT. Laws of SHA-256 contexts: absorbing in parts, the count and the buffer, the length of the padding and of the digest, and
the HMAC tag as the tag of the primed context. -/

namespace Sys2Proof.Machine

@[simp] theorem absorb_nil (c : ShaContext) : absorb c [] = c := rfl

/-- `absorb(absorb(c, a), b) = absorb(c, a ++ b)` (42_sha256.md R187). -/
theorem absorb_append (c : ShaContext) (a b : List Byte) : absorb c (a ++ b) = absorb (absorb c a) b :=
  List.foldl_append

@[simp] theorem absorbByte_cnt (c : ShaContext) (x : Byte) : (absorbByte c x).cnt = c.cnt + 1 := by
  unfold absorbByte; split <;> rfl

@[simp] theorem absorb_cnt (c : ShaContext) (s : List Byte) : (absorb c s).cnt = c.cnt + s.length := by
  induction s generalizing c with
  | nil => rfl
  | cons x s ih => simp only [absorb, List.foldl_cons] at ih ⊢; rw [ih]; simp; omega

/-- The buffer holds `cnt mod 64` bytes after a byte if it did before (10_state.md R33). -/
theorem absorbByte_buf (c : ShaContext) (x : Byte) (h : c.buf.length = c.cnt % 64) :
    (absorbByte c x).buf.length = (absorbByte c x).cnt % 64 := by
  unfold absorbByte; split <;> simp <;> omega

theorem absorb_buf (c : ShaContext) (s : List Byte) (h : c.buf.length = c.cnt % 64) :
    (absorb c s).buf.length = (absorb c s).cnt % 64 := by
  induction s generalizing c with
  | nil => exact h
  | cons x s ih => exact ih _ (absorbByte_buf c x h)

theorem shaInit_wf : shaInit.Wf := ⟨rfl, by decide⟩

/-- Absorbing keeps a context well formed while the length limit holds (42_sha256.md R190). -/
theorem absorb_wf (c : ShaContext) (s : List Byte) (h : c.Wf) (hn : c.cnt + s.length ≤ Config.shaMaxBytes) :
    (absorb c s).Wf :=
  ⟨absorb_buf c s h.buf_length, by rw [absorb_cnt]; exact hn⟩

theorem shaPad_length (n : Nat) : (shaPad n).length = 1 + (119 - n % 64) % 64 + 8 := by
  simp [shaPad]; omega

/-- The padded length is a multiple of 64 (42_sha256.md R188). -/
theorem padded_length_mod (n : Nat) : (n + (shaPad n).length) % 64 = 0 := by
  rw [shaPad_length]; omega

@[simp] theorem sha256final_length (c : ShaContext) : (sha256final c).length = 32 := by
  simp [sha256final]

@[simp] theorem sha256_length (m : List Byte) : (sha256 m).length = 32 := sha256final_length _

@[simp] theorem macTag_length (kp : Vector Byte 64) (c : ShaContext) : (macTag kp c).length = 32 := sha256_length _

@[simp] theorem xorPad_length (kp : Vector Byte 64) (b : Byte) : (xorPad kp b).length = 64 := by simp [xorPad]

@[simp] theorem primeInner_cnt (kp : Vector Byte 64) : (primeInner kp).cnt = 64 := by simp [primeInner, shaInit]

theorem primeInner_wf (kp : Vector Byte 64) : (primeInner kp).Wf :=
  absorb_wf _ _ shaInit_wf (by rw [xorPad_length]; decide)

/-- The tag of the primed context after a message is HMAC of the message (41_hmac.md R153, R161). -/
theorem macTag_primeInner (k m : List Byte) :
    macTag (normkey k) (absorb (primeInner (normkey k)) m) = hmac k m := by
  simp only [macTag, hmac, primeInner, ← absorb_append]
  rfl

end Sys2Proof.Machine
end

