-- ==== Sys2Proof/Laws/State.lean ====
section
/-! SUPPORT. One lemma per field for each named update of State, true by rfl, so that no later proof unfolds a record update. -/

namespace Sys2Proof.Machine

@[simp] theorem State.clearLatches_done (s : State) : s.clearLatches.done = false := rfl
@[simp] theorem State.clearLatches_err (s : State) : s.clearLatches.err = false := rfl
@[simp] theorem State.clearLatches_errCode (s : State) : s.clearLatches.errCode = .ok := rfl
@[simp] theorem State.clearLatches_outLen (s : State) : s.clearLatches.outLen = s.outLen := rfl
@[simp] theorem State.clearLatches_ctrLo (s : State) : s.clearLatches.ctrLo = s.ctrLo := rfl
@[simp] theorem State.clearLatches_ctrHi (s : State) : s.clearLatches.ctrHi = s.ctrHi := rfl
@[simp] theorem State.clearLatches_data (s : State) : s.clearLatches.data = s.data := rfl
@[simp] theorem State.clearLatches_out (s : State) : s.clearLatches.out = s.out := rfl
@[simp] theorem State.clearLatches_sc (s : State) : s.clearLatches.sc = s.sc := rfl
@[simp] theorem State.clearLatches_mc (s : State) : s.clearLatches.mc = s.mc := rfl
@[simp] theorem State.clearLatches_hs (s : State) : s.clearLatches.hs = s.hs := rfl
@[simp] theorem State.clearLatches_pending (s : State) : s.clearLatches.pending = s.pending := rfl
@[simp] theorem State.clearLatches_fault (s : State) : s.clearLatches.fault = s.fault := rfl
@[simp] theorem State.clearLatches_turns (s : State) : s.clearLatches.turns = s.turns := rfl
@[simp] theorem State.clearLatches_rdata (s : State) : s.clearLatches.rdata = s.rdata := rfl

@[simp] theorem State.latchSuccess_done (s : State) : s.latchSuccess.done = true := rfl
@[simp] theorem State.latchSuccess_err (s : State) : s.latchSuccess.err = false := rfl
@[simp] theorem State.latchSuccess_errCode (s : State) : s.latchSuccess.errCode = .ok := rfl
@[simp] theorem State.latchSuccess_outLen (s : State) : s.latchSuccess.outLen = s.outLen := rfl
@[simp] theorem State.latchSuccess_ctrLo (s : State) : s.latchSuccess.ctrLo = s.ctrLo := rfl
@[simp] theorem State.latchSuccess_ctrHi (s : State) : s.latchSuccess.ctrHi = s.ctrHi := rfl
@[simp] theorem State.latchSuccess_data (s : State) : s.latchSuccess.data = s.data := rfl
@[simp] theorem State.latchSuccess_out (s : State) : s.latchSuccess.out = s.out := rfl
@[simp] theorem State.latchSuccess_sc (s : State) : s.latchSuccess.sc = s.sc := rfl
@[simp] theorem State.latchSuccess_mc (s : State) : s.latchSuccess.mc = s.mc := rfl
@[simp] theorem State.latchSuccess_hs (s : State) : s.latchSuccess.hs = s.hs := rfl
@[simp] theorem State.latchSuccess_pending (s : State) : s.latchSuccess.pending = s.pending := rfl
@[simp] theorem State.latchSuccess_fault (s : State) : s.latchSuccess.fault = s.fault := rfl
@[simp] theorem State.latchSuccess_turns (s : State) : s.latchSuccess.turns = s.turns := rfl
@[simp] theorem State.latchSuccess_rdata (s : State) : s.latchSuccess.rdata = s.rdata := rfl

@[simp] theorem State.latchError_done (s : State) (e : ErrCode) : (s.latchError e).done = false := rfl
@[simp] theorem State.latchError_err (s : State) (e : ErrCode) : (s.latchError e).err = true := rfl
@[simp] theorem State.latchError_errCode (s : State) (e : ErrCode) : (s.latchError e).errCode = e := rfl
@[simp] theorem State.latchError_outLen (s : State) (e : ErrCode) : (s.latchError e).outLen = s.outLen := rfl
@[simp] theorem State.latchError_ctrLo (s : State) (e : ErrCode) : (s.latchError e).ctrLo = s.ctrLo := rfl
@[simp] theorem State.latchError_ctrHi (s : State) (e : ErrCode) : (s.latchError e).ctrHi = s.ctrHi := rfl
@[simp] theorem State.latchError_data (s : State) (e : ErrCode) : (s.latchError e).data = s.data := rfl
@[simp] theorem State.latchError_out (s : State) (e : ErrCode) : (s.latchError e).out = s.out := rfl
@[simp] theorem State.latchError_sc (s : State) (e : ErrCode) : (s.latchError e).sc = s.sc := rfl
@[simp] theorem State.latchError_mc (s : State) (e : ErrCode) : (s.latchError e).mc = s.mc := rfl
@[simp] theorem State.latchError_hs (s : State) (e : ErrCode) : (s.latchError e).hs = s.hs := rfl
@[simp] theorem State.latchError_pending (s : State) (e : ErrCode) : (s.latchError e).pending = s.pending := rfl
@[simp] theorem State.latchError_fault (s : State) (e : ErrCode) : (s.latchError e).fault = s.fault := rfl
@[simp] theorem State.latchError_turns (s : State) (e : ErrCode) : (s.latchError e).turns = s.turns := rfl
@[simp] theorem State.latchError_rdata (s : State) (e : ErrCode) : (s.latchError e).rdata = s.rdata := rfl

@[simp] theorem State.complete_done (s : State) : s.complete.done = true := rfl
@[simp] theorem State.complete_err (s : State) : s.complete.err = false := rfl
@[simp] theorem State.complete_errCode (s : State) : s.complete.errCode = .ok := rfl
@[simp] theorem State.complete_outLen (s : State) : s.complete.outLen = s.outLen := rfl
@[simp] theorem State.complete_ctrLo (s : State) : s.complete.ctrLo = s.ctrLo := rfl
@[simp] theorem State.complete_ctrHi (s : State) : s.complete.ctrHi = s.ctrHi := rfl
@[simp] theorem State.complete_data (s : State) : s.complete.data = s.data := rfl
@[simp] theorem State.complete_out (s : State) : s.complete.out = s.out := rfl
@[simp] theorem State.complete_sc (s : State) : s.complete.sc = s.sc := rfl
@[simp] theorem State.complete_mc (s : State) : s.complete.mc = s.mc := rfl
@[simp] theorem State.complete_hs (s : State) : s.complete.hs = s.hs := rfl
@[simp] theorem State.complete_pending (s : State) : s.complete.pending = none := rfl
@[simp] theorem State.complete_fault (s : State) : s.complete.fault = s.fault := rfl
@[simp] theorem State.complete_turns (s : State) : s.complete.turns = s.turns := rfl
@[simp] theorem State.complete_rdata (s : State) : s.complete.rdata = s.rdata := rfl

@[simp] theorem State.raiseError_done (s : State) (e : ErrCode) : (s.raiseError e).done = false := rfl
@[simp] theorem State.raiseError_err (s : State) (e : ErrCode) : (s.raiseError e).err = true := rfl
@[simp] theorem State.raiseError_errCode (s : State) (e : ErrCode) : (s.raiseError e).errCode = e := rfl
@[simp] theorem State.raiseError_outLen (s : State) (e : ErrCode) : (s.raiseError e).outLen = s.outLen := rfl
@[simp] theorem State.raiseError_ctrLo (s : State) (e : ErrCode) : (s.raiseError e).ctrLo = s.ctrLo := rfl
@[simp] theorem State.raiseError_ctrHi (s : State) (e : ErrCode) : (s.raiseError e).ctrHi = s.ctrHi := rfl
@[simp] theorem State.raiseError_data (s : State) (e : ErrCode) : (s.raiseError e).data = s.data := rfl
@[simp] theorem State.raiseError_out (s : State) (e : ErrCode) : (s.raiseError e).out = s.out := rfl
@[simp] theorem State.raiseError_sc (s : State) (e : ErrCode) : (s.raiseError e).sc = s.sc := rfl
@[simp] theorem State.raiseError_mc (s : State) (e : ErrCode) : (s.raiseError e).mc = s.mc := rfl
@[simp] theorem State.raiseError_hs (s : State) (e : ErrCode) : (s.raiseError e).hs = s.hs := rfl
@[simp] theorem State.raiseError_pending (s : State) (e : ErrCode) : (s.raiseError e).pending = none := rfl
@[simp] theorem State.raiseError_fault (s : State) (e : ErrCode) : (s.raiseError e).fault = s.fault := rfl
@[simp] theorem State.raiseError_turns (s : State) (e : ErrCode) : (s.raiseError e).turns = s.turns := rfl
@[simp] theorem State.raiseError_rdata (s : State) (e : ErrCode) : (s.raiseError e).rdata = s.rdata := rfl

@[simp] theorem State.issue_done (s : State) (c : Word) : (s.issue c).done = false := rfl
@[simp] theorem State.issue_err (s : State) (c : Word) : (s.issue c).err = false := rfl
@[simp] theorem State.issue_errCode (s : State) (c : Word) : (s.issue c).errCode = .ok := rfl
@[simp] theorem State.issue_outLen (s : State) (c : Word) : (s.issue c).outLen = s.outLen := rfl
@[simp] theorem State.issue_ctrLo (s : State) (c : Word) : (s.issue c).ctrLo = s.ctrLo := rfl
@[simp] theorem State.issue_ctrHi (s : State) (c : Word) : (s.issue c).ctrHi = s.ctrHi := rfl
@[simp] theorem State.issue_data (s : State) (c : Word) : (s.issue c).data = s.data := rfl
@[simp] theorem State.issue_out (s : State) (c : Word) : (s.issue c).out = s.out := rfl
@[simp] theorem State.issue_sc (s : State) (c : Word) : (s.issue c).sc = s.sc := rfl
@[simp] theorem State.issue_mc (s : State) (c : Word) : (s.issue c).mc = s.mc := rfl
@[simp] theorem State.issue_hs (s : State) (c : Word) : (s.issue c).hs = s.hs := rfl
@[simp] theorem State.issue_pending (s : State) (c : Word) : (s.issue c).pending = some c := rfl
@[simp] theorem State.issue_fault (s : State) (c : Word) : (s.issue c).fault = s.fault := rfl
@[simp] theorem State.issue_turns (s : State) (c : Word) : (s.issue c).turns = s.turns := rfl
@[simp] theorem State.issue_rdata (s : State) (c : Word) : (s.issue c).rdata = s.rdata := rfl

@[simp] theorem State.putResult_done (s : State) (r : List Byte) : (s.putResult r).done = s.done := rfl
@[simp] theorem State.putResult_err (s : State) (r : List Byte) : (s.putResult r).err = s.err := rfl
@[simp] theorem State.putResult_errCode (s : State) (r : List Byte) : (s.putResult r).errCode = s.errCode := rfl
@[simp] theorem State.putResult_outLen (s : State) (r : List Byte) : (s.putResult r).outLen = BitVec.ofNat 7 r.length := rfl
@[simp] theorem State.putResult_ctrLo (s : State) (r : List Byte) : (s.putResult r).ctrLo = s.ctrLo := rfl
@[simp] theorem State.putResult_ctrHi (s : State) (r : List Byte) : (s.putResult r).ctrHi = s.ctrHi := rfl
@[simp] theorem State.putResult_data (s : State) (r : List Byte) : (s.putResult r).data = s.data := rfl
@[simp] theorem State.putResult_out (s : State) (r : List Byte) : (s.putResult r).out = block64 r := rfl
@[simp] theorem State.putResult_sc (s : State) (r : List Byte) : (s.putResult r).sc = s.sc := rfl
@[simp] theorem State.putResult_mc (s : State) (r : List Byte) : (s.putResult r).mc = s.mc := rfl
@[simp] theorem State.putResult_hs (s : State) (r : List Byte) : (s.putResult r).hs = s.hs := rfl
@[simp] theorem State.putResult_pending (s : State) (r : List Byte) : (s.putResult r).pending = s.pending := rfl
@[simp] theorem State.putResult_fault (s : State) (r : List Byte) : (s.putResult r).fault = s.fault := rfl
@[simp] theorem State.putResult_turns (s : State) (r : List Byte) : (s.putResult r).turns = s.turns := rfl
@[simp] theorem State.putResult_rdata (s : State) (r : List Byte) : (s.putResult r).rdata = s.rdata := rfl

@[simp] theorem State.addFaults_done (s : State) (f : FaultSet) : (s.addFaults f).done = s.done := rfl
@[simp] theorem State.addFaults_err (s : State) (f : FaultSet) : (s.addFaults f).err = s.err := rfl
@[simp] theorem State.addFaults_errCode (s : State) (f : FaultSet) : (s.addFaults f).errCode = s.errCode := rfl
@[simp] theorem State.addFaults_outLen (s : State) (f : FaultSet) : (s.addFaults f).outLen = s.outLen := rfl
@[simp] theorem State.addFaults_ctrLo (s : State) (f : FaultSet) : (s.addFaults f).ctrLo = s.ctrLo := rfl
@[simp] theorem State.addFaults_ctrHi (s : State) (f : FaultSet) : (s.addFaults f).ctrHi = s.ctrHi := rfl
@[simp] theorem State.addFaults_data (s : State) (f : FaultSet) : (s.addFaults f).data = s.data := rfl
@[simp] theorem State.addFaults_out (s : State) (f : FaultSet) : (s.addFaults f).out = s.out := rfl
@[simp] theorem State.addFaults_sc (s : State) (f : FaultSet) : (s.addFaults f).sc = s.sc := rfl
@[simp] theorem State.addFaults_mc (s : State) (f : FaultSet) : (s.addFaults f).mc = s.mc := rfl
@[simp] theorem State.addFaults_hs (s : State) (f : FaultSet) : (s.addFaults f).hs = s.hs := rfl
@[simp] theorem State.addFaults_pending (s : State) (f : FaultSet) : (s.addFaults f).pending = s.pending := rfl
@[simp] theorem State.addFaults_fault (s : State) (f : FaultSet) : (s.addFaults f).fault = s.fault.union f := rfl
@[simp] theorem State.addFaults_turns (s : State) (f : FaultSet) : (s.addFaults f).turns = s.turns := rfl
@[simp] theorem State.addFaults_rdata (s : State) (f : FaultSet) : (s.addFaults f).rdata = s.rdata := rfl

@[simp] theorem State.setDataWord_done (s : State) (i : Fin 16) (v : Word) : (s.setDataWord i v).done = s.done := rfl
@[simp] theorem State.setDataWord_err (s : State) (i : Fin 16) (v : Word) : (s.setDataWord i v).err = s.err := rfl
@[simp] theorem State.setDataWord_errCode (s : State) (i : Fin 16) (v : Word) : (s.setDataWord i v).errCode = s.errCode := rfl
@[simp] theorem State.setDataWord_outLen (s : State) (i : Fin 16) (v : Word) : (s.setDataWord i v).outLen = s.outLen := rfl
@[simp] theorem State.setDataWord_ctrLo (s : State) (i : Fin 16) (v : Word) : (s.setDataWord i v).ctrLo = s.ctrLo := rfl
@[simp] theorem State.setDataWord_ctrHi (s : State) (i : Fin 16) (v : Word) : (s.setDataWord i v).ctrHi = s.ctrHi := rfl
@[simp] theorem State.setDataWord_out (s : State) (i : Fin 16) (v : Word) : (s.setDataWord i v).out = s.out := rfl
@[simp] theorem State.setDataWord_sc (s : State) (i : Fin 16) (v : Word) : (s.setDataWord i v).sc = s.sc := rfl
@[simp] theorem State.setDataWord_mc (s : State) (i : Fin 16) (v : Word) : (s.setDataWord i v).mc = s.mc := rfl
@[simp] theorem State.setDataWord_hs (s : State) (i : Fin 16) (v : Word) : (s.setDataWord i v).hs = s.hs := rfl
@[simp] theorem State.setDataWord_pending (s : State) (i : Fin 16) (v : Word) : (s.setDataWord i v).pending = s.pending := rfl
@[simp] theorem State.setDataWord_fault (s : State) (i : Fin 16) (v : Word) : (s.setDataWord i v).fault = s.fault := rfl
@[simp] theorem State.setDataWord_turns (s : State) (i : Fin 16) (v : Word) : (s.setDataWord i v).turns = s.turns := rfl
@[simp] theorem State.setDataWord_rdata (s : State) (i : Fin 16) (v : Word) : (s.setDataWord i v).rdata = s.rdata := rfl

@[simp] theorem State.loaded_done (s : State) (b : List Byte) : (s.loaded b).done = s.done := rfl
@[simp] theorem State.loaded_err (s : State) (b : List Byte) : (s.loaded b).err = s.err := rfl
@[simp] theorem State.loaded_errCode (s : State) (b : List Byte) : (s.loaded b).errCode = s.errCode := rfl
@[simp] theorem State.loaded_outLen (s : State) (b : List Byte) : (s.loaded b).outLen = s.outLen := rfl
@[simp] theorem State.loaded_ctrLo (s : State) (b : List Byte) : (s.loaded b).ctrLo = s.ctrLo := rfl
@[simp] theorem State.loaded_ctrHi (s : State) (b : List Byte) : (s.loaded b).ctrHi = s.ctrHi := rfl
@[simp] theorem State.loaded_data (s : State) (b : List Byte) : (s.loaded b).data = block64 b := rfl
@[simp] theorem State.loaded_out (s : State) (b : List Byte) : (s.loaded b).out = s.out := rfl
@[simp] theorem State.loaded_sc (s : State) (b : List Byte) : (s.loaded b).sc = s.sc := rfl
@[simp] theorem State.loaded_mc (s : State) (b : List Byte) : (s.loaded b).mc = s.mc := rfl
@[simp] theorem State.loaded_hs (s : State) (b : List Byte) : (s.loaded b).hs = s.hs := rfl
@[simp] theorem State.loaded_pending (s : State) (b : List Byte) : (s.loaded b).pending = s.pending := rfl
@[simp] theorem State.loaded_fault (s : State) (b : List Byte) : (s.loaded b).fault = s.fault := rfl
@[simp] theorem State.loaded_turns (s : State) (b : List Byte) : (s.loaded b).turns = s.turns := rfl
@[simp] theorem State.loaded_rdata (s : State) (b : List Byte) : (s.loaded b).rdata = s.rdata := rfl

@[simp] theorem emitBlock_done (s : State) (st : Vector Word 16) (ctr : BitVec 64) : (emitBlock s st ctr).done = s.done := rfl
@[simp] theorem emitBlock_err (s : State) (st : Vector Word 16) (ctr : BitVec 64) : (emitBlock s st ctr).err = s.err := rfl
@[simp] theorem emitBlock_errCode (s : State) (st : Vector Word 16) (ctr : BitVec 64) : (emitBlock s st ctr).errCode = s.errCode := rfl
@[simp] theorem emitBlock_outLen (s : State) (st : Vector Word 16) (ctr : BitVec 64) : (emitBlock s st ctr).outLen = BitVec.ofNat 7 (salsablock st ctr s.sc.rounds.toNat).length := rfl
@[simp] theorem emitBlock_ctrLo (s : State) (st : Vector Word 16) (ctr : BitVec 64) : (emitBlock s st ctr).ctrLo = s.ctrLo := rfl
@[simp] theorem emitBlock_ctrHi (s : State) (st : Vector Word 16) (ctr : BitVec 64) : (emitBlock s st ctr).ctrHi = s.ctrHi := rfl
@[simp] theorem emitBlock_data (s : State) (st : Vector Word 16) (ctr : BitVec 64) : (emitBlock s st ctr).data = s.data := rfl
@[simp] theorem emitBlock_out (s : State) (st : Vector Word 16) (ctr : BitVec 64) : (emitBlock s st ctr).out = block64 (salsablock st ctr s.sc.rounds.toNat) := rfl
@[simp] theorem emitBlock_sc (s : State) (st : Vector Word 16) (ctr : BitVec 64) : (emitBlock s st ctr).sc = { s.sc with state := some (withCounter st ctr) } := rfl
@[simp] theorem emitBlock_mc (s : State) (st : Vector Word 16) (ctr : BitVec 64) : (emitBlock s st ctr).mc = s.mc := rfl
@[simp] theorem emitBlock_hs (s : State) (st : Vector Word 16) (ctr : BitVec 64) : (emitBlock s st ctr).hs = s.hs := rfl
@[simp] theorem emitBlock_pending (s : State) (st : Vector Word 16) (ctr : BitVec 64) : (emitBlock s st ctr).pending = s.pending := rfl
@[simp] theorem emitBlock_fault (s : State) (st : Vector Word 16) (ctr : BitVec 64) : (emitBlock s st ctr).fault = s.fault := rfl
@[simp] theorem emitBlock_turns (s : State) (st : Vector Word 16) (ctr : BitVec 64) : (emitBlock s st ctr).turns = s.turns := rfl
@[simp] theorem emitBlock_rdata (s : State) (st : Vector Word 16) (ctr : BitVec 64) : (emitBlock s st ctr).rdata = s.rdata := rfl

@[simp] theorem State.resetEvent_done (s : State) : s.resetEvent.done = State.reset.done := rfl
@[simp] theorem State.resetEvent_err (s : State) : s.resetEvent.err = State.reset.err := rfl
@[simp] theorem State.resetEvent_errCode (s : State) : s.resetEvent.errCode = State.reset.errCode := rfl
@[simp] theorem State.resetEvent_outLen (s : State) : s.resetEvent.outLen = State.reset.outLen := rfl
@[simp] theorem State.resetEvent_ctrLo (s : State) : s.resetEvent.ctrLo = State.reset.ctrLo := rfl
@[simp] theorem State.resetEvent_ctrHi (s : State) : s.resetEvent.ctrHi = State.reset.ctrHi := rfl
@[simp] theorem State.resetEvent_data (s : State) : s.resetEvent.data = State.reset.data := rfl
@[simp] theorem State.resetEvent_out (s : State) : s.resetEvent.out = State.reset.out := rfl
@[simp] theorem State.resetEvent_sc (s : State) : s.resetEvent.sc = State.reset.sc := rfl
@[simp] theorem State.resetEvent_mc (s : State) : s.resetEvent.mc = State.reset.mc := rfl
@[simp] theorem State.resetEvent_hs (s : State) : s.resetEvent.hs = State.reset.hs := rfl
@[simp] theorem State.resetEvent_pending (s : State) : s.resetEvent.pending = State.reset.pending := rfl
@[simp] theorem State.resetEvent_fault (s : State) : s.resetEvent.fault = s.fault := rfl
@[simp] theorem State.resetEvent_turns (s : State) : s.resetEvent.turns = s.turns := rfl
@[simp] theorem State.resetEvent_rdata (s : State) : s.resetEvent.rdata = State.reset.rdata := rfl

end Sys2Proof.Machine
end

