-- ==== Sys2Proof/Laws/Ops.lean ====
section
/-! SUPPORT. What each shared operation can do, said once: completion, the guards, and the last part of a MAC. -/

namespace Sys2Proof.Machine

@[simp] theorem succeed_eq (s : State) : succeed s = .next s.complete := rfl

@[simp] theorem raiseError_eq (s : State) (e : ErrCode) : raiseError s e = .next (s.raiseError e) := rfl

theorem FaultSet.union_empty (f : FaultSet) : f.union .empty = f := by
  cases f; simp [FaultSet.union, FaultSet.empty]

/-- `whenKeyed` answers a next state in two ways: E_NOT_INIT without a key, or the continuation on SC.state. -/
theorem whenKeyed_next {s t : State} {k : Vector Word 16 → Result} (h : whenKeyed s k = .next t) :
    (s.sc.keyed = false ∧ t = s.raiseError .notInit) ∨ (s.sc.keyed = true ∧ ∃ st, s.sc.state = some st ∧ k st = .next t) := by
  unfold whenKeyed at h
  split at h
  · rename_i hk
    exact .inl ⟨hk, by cases h; rfl⟩
  · rename_i hk
    split at h
    · cases h
    · rename_i st hst
      exact .inr ⟨by simpa using hk, st, hst, h⟩

theorem whenKeyed_of_not {s : State} (k : Vector Word 16 → Result) (h : s.sc.keyed = false) :
    whenKeyed s k = .next (s.raiseError .notInit) := by
  simp [whenKeyed, h]

theorem whenKeyed_of_state {s : State} {st : Vector Word 16} (k : Vector Word 16 → Result) (h : s.sc.keyed = true)
    (hst : s.sc.state = some st) : whenKeyed s k = k st := by
  simp [whenKeyed, h, hst]

/-- `whenReady` answers a next state in three ways: E_NOT_INIT in phase Unkeyed, E_MISUSE in phase Finalized, or the
continuation on MC.ictx. -/
theorem whenReady_next {s t : State} {k : ShaContext → Result} (h : whenReady s k = .next t) :
    (s.mc.phase = .unkeyed ∧ t = s.raiseError .notInit) ∨ (s.mc.phase = .finalized ∧ t = s.raiseError .misuse) ∨
    (s.mc.phase = .ready ∧ ∃ c, s.mc.ictx = some c ∧ k c = .next t) := by
  unfold whenReady at h
  split at h
  · exact .inl ⟨‹_›, by cases h; rfl⟩
  · exact .inr (.inl ⟨‹_›, by cases h; rfl⟩)
  · split at h
    · cases h
    · exact .inr (.inr ⟨‹_›, _, ‹_›, h⟩)

theorem whenReady_of_unkeyed {s : State} (k : ShaContext → Result) (h : s.mc.phase = .unkeyed) :
    whenReady s k = .next (s.raiseError .notInit) := by
  simp [whenReady, h]

theorem whenReady_of_finalized {s : State} (k : ShaContext → Result) (h : s.mc.phase = .finalized) :
    whenReady s k = .next (s.raiseError .misuse) := by
  simp [whenReady, h]

theorem whenReady_of_context {s : State} {c : ShaContext} (k : ShaContext → Result) (h : s.mc.phase = .ready)
    (hc : s.mc.ictx = some c) : whenReady s k = k c := by
  simp [whenReady, h, hc]

theorem withKeyPad_next {s t : State} {k : Vector Byte 64 → Result} (h : withKeyPad s k = .next t) :
    ∃ kp, s.mc.kpad = some kp ∧ k kp = .next t := by
  unfold withKeyPad at h
  split at h
  · cases h
  · exact ⟨_, ‹_›, h⟩

theorem withKeyPad_of_some {s : State} {kp : Vector Byte 64} (k : Vector Byte 64 → Result) (h : s.mc.kpad = some kp) :
    withKeyPad s k = k kp := by
  simp [withKeyPad, h]

/-- With a key, `finishMac` completes: the tag in OUT, the inner context consumed, phase Finalized (41_hmac.md R158). -/
theorem finishMac_of_kpad {s : State} {kp : Vector Byte 64} (c : ShaContext) (h : s.mc.kpad = some kp) :
    finishMac s c = .next (State.complete
      { s.putResult (macTag kp c) with mc := { s.mc with ictx := none, phase := .finalized } }) := by
  simp [finishMac, withKeyPad_of_some _ h]

theorem finishMac_next {s t : State} {c : ShaContext} (h : finishMac s c = .next t) :
    ∃ kp, s.mc.kpad = some kp ∧ t = State.complete
      { s.putResult (macTag kp c) with mc := { s.mc with ictx := none, phase := .finalized } } := by
  obtain ⟨kp, hk, h⟩ := withKeyPad_next h
  exact ⟨kp, hk, by cases h; rfl⟩

end Sys2Proof.Machine
end

