-- ==== Sys2Proof/Laws/Bus.lean ====
section
/-! SUPPORT. What a host access can do, said once: the register at each offset, the two kinds of access (with a fault and without),
the bits of STATUS, and the bytes of DATA after a write. -/

namespace Sys2Proof.Machine

/-- The bits of the STATUS word (10_state.md R35). -/
theorem statusWord_getLsbD (s : State) (i : Nat) : s.statusWord.getLsbD i =
    if i < 1 then s.busy else if i < 2 then s.done else if i < 3 then s.err else if i < 4 then false
    else if i < 5 then s.sc.keyed else if i < 6 then s.macKeyed else if i < 7 then s.macFinal
    else if i < 8 then false else if i < 16 then s.errCode.value.getLsbD (i - 8) else s.outLen.getLsbD (i - 16) := by
  unfold State.statusWord
  refine BitVec.getLsbD_append.trans ?_
  simp only [BitVec.getLsbD_append, BitVec.getLsbD_ofBool, BitVec.getLsbD_zero]
  by_cases h : i < 8
  · interval_cases i <;> simp
  · simp only [show ¬i < 1 by omega, show ¬i < 2 by omega, show ¬i < 3 by omega, show ¬i < 4 by omega, show ¬i < 5 by omega,
      show ¬i < 6 by omega, show ¬i < 7 by omega, show ¬i < 8 by omega, Nat.sub_sub, show ¬i - 1 < 1 by omega,
      show ¬i - 2 < 1 by omega, show ¬i - 3 < 1 by omega, show ¬i - 4 < 1 by omega, show ¬i - 5 < 1 by omega,
      show ¬i - 6 < 1 by omega, show ¬i - 7 < 1 by omega, if_false, Nat.reduceAdd]
    by_cases h' : i < 16
    · rw [if_pos (by omega), if_pos h']
    · rw [if_neg (by omega), if_neg h']
      by_cases h2 : i < 23
      · rw [if_pos (by omega)]
      · rw [if_neg (by omega), BitVec.getLsbD_of_ge _ _ (by omega)]

@[simp] theorem Access.legal_read (off : BitVec 8) (w : Nat) :
    (Access.read off w).legal = (w == 4 && off.toNat % 4 == 0) := rfl

@[simp] theorem Access.legal_write (off : BitVec 8) (w : Nat) (v : Word) :
    (Access.write off w v).legal = (w == 4 && off.toNat % 4 == 0) := rfl

/-- With no command pending, a legal access has its effect and no fault (20_memory.md R53, R55). -/
theorem hostAccess_of_legal {s : State} {a : Access} (hp : s.pending = none) (ha : a.legal = true) :
    s.hostAccess a = s.perform a := by
  simp [State.hostAccess, State.accessFaults, State.busy, hp, ha, FaultSet.empty]

/-- An access with a fault records it and has no other effect (60_exceptions.md R226). -/
theorem hostAccess_of_faults {s : State} {a : Access} (h : s.accessFaults a ≠ .empty) :
    s.hostAccess a = s.addFaults (s.accessFaults a) := by
  simp [State.hostAccess, h]

/-- A read of STATUS is permitted always (70_reset_and_hazards.md R254). -/
theorem hostAccess_statusRead (s : State) : s.hostAccess (.read 0x04 4) = { s with rdata := some s.statusWord } := by
  simp [State.hostAccess, State.accessFaults, Access.isStatusRead, FaultSet.empty, State.perform, Reg.ofOffset, State.readReg]

/-- No host access changes a unit, OUT or OUT_LEN, or the coming turns. -/
theorem hostAccess_frame (s : State) (a : Access) :
    (s.hostAccess a).sc = s.sc ∧ (s.hostAccess a).mc = s.mc ∧ (s.hostAccess a).hs = s.hs ∧ (s.hostAccess a).out = s.out ∧
    (s.hostAccess a).outLen = s.outLen ∧ (s.hostAccess a).turns = s.turns := by
  unfold State.hostAccess
  simp only
  split
  · cases a with
    | read off w => exact ⟨rfl, rfl, rfl, rfl, rfl, rfl⟩
    | write off w v =>
      simp only [State.perform]
      cases Reg.ofOffset off <;> exact ⟨rfl, rfl, rfl, rfl, rfl, rfl⟩
  · exact ⟨rfl, rfl, rfl, rfl, rfl, rfl⟩

/-- FAULT after a host access is what it was, with the faults of the access added (60_exceptions.md R226). -/
theorem hostAccess_fault (s : State) (a : Access) : (s.hostAccess a).fault = s.fault.union (s.accessFaults a) := by
  by_cases h : s.accessFaults a = .empty
  · rw [h, FaultSet.union_empty, State.hostAccess, h]
    cases a with
    | read off w => rfl
    | write off w v =>
      simp only [State.perform, if_true]
      cases Reg.ofOffset off <;> rfl
  · rw [hostAccess_of_faults h]; rfl

/-- While BUSY = 1 an access changes nothing but FAULT and the value last read (70_reset_and_hazards.md R254). -/
theorem hostAccess_busy {s : State} (hp : s.pending ≠ none) (a : Access) :
    ∃ f r, s.hostAccess a = { s with fault := f, rdata := r } ∧
      f.hostHazard = (s.fault.hostHazard || decide (a ≠ .read 0x04 4)) := by
  by_cases ha : a = .read 0x04 4
  · exact ⟨s.fault, some s.statusWord, by rw [ha, hostAccess_statusRead], by simp [ha]⟩
  · have hb : s.pending.isSome = true := Option.isSome_iff_ne_none.2 hp
    change a ≠ .read 4#8 4 at ha
    refine ⟨_, s.rdata, hostAccess_of_faults (by
      simp [State.accessFaults, State.busy, hb, Access.isStatusRead, ha, FaultSet.empty]), ?_⟩
    simp [FaultSet.union, State.accessFaults, State.busy, hb, Access.isStatusRead, ha]

/-- The host's move is one access. -/
theorem step_host {s : State} {a : Access} {rest : List Turn} (h : s.turns = .host a :: rest) :
    step s = .next (State.hostAccess { s with turns := rest } a) := by
  unfold step; rw [h]

theorem ofOffset_data (i : Fin 16) : Reg.ofOffset (BitVec.ofNat 8 (0x40 + 4 * i.val)) = .data i := by
  revert i; decide

theorem ofOffset_out (i : Fin 16) : Reg.ofOffset (BitVec.ofNat 8 (0x80 + 4 * i.val)) = .out i := by
  revert i; decide

theorem ofOffset_reserved_low (i : Fin 8) : Reg.ofOffset (BitVec.ofNat 8 (0x20 + 4 * i.val)) = .reserved := by
  revert i; decide

theorem ofOffset_reserved_high (i : Fin 16) : Reg.ofOffset (BitVec.ofNat 8 (0xC0 + 4 * i.val)) = .reserved := by
  revert i; decide

/-- A permitted 32-bit write at an aligned offset writes the register there. -/
theorem writesAs_of_reg {s t : State} {off : Nat} {v : Word} (r : Reg) (hp : s.pending = none) (ho : off % 4 = 0)
    (hl : off < 256) (hr : Reg.ofOffset (BitVec.ofNat 8 off) = r)
    (ht : ∀ rest, State.writeReg { s with turns := rest } r v = { t with turns := rest }) : WritesAs s off v t := by
  intro rest
  rw [step_host rfl]
  refine congrArg Host.Outcome.next ((hostAccess_of_legal (s := { s with turns := rest }) hp ?_).trans ?_)
  · simp [Nat.mod_eq_of_lt hl, ho]
  · simp only [State.perform, hr, ht]

/-- A permitted 32-bit read at an aligned offset returns the register there. -/
theorem readsAs_of_reg {s : State} {off : Nat} {v : Word} (r : Reg) (hp : s.pending = none) (ho : off % 4 = 0)
    (hl : off < 256) (hr : Reg.ofOffset (BitVec.ofNat 8 off) = r) (hv : s.readReg r = v) : ReadsAs s off v := by
  intro rest
  rw [step_host rfl]
  refine congrArg Host.Outcome.next ((hostAccess_of_legal (s := { s with turns := rest }) hp ?_).trans ?_)
  · simp [Nat.mod_eq_of_lt hl, ho]
  · subst hv hr
    simp only [State.perform]
    cases Reg.ofOffset (BitVec.ofNat 8 off) <;> rfl

/-- The bytes of DATA after a write to word i (20_memory.md R55, R56). -/
theorem setDataWord_data (s : State) (i : Fin 16) (v : Word) (k : Fin 64) :
    (s.setDataWord i v).data[k] = if k.val / 4 = i.val then v.extractLsb' (8 * (k.val % 4)) 8 else s.data[k] := by
  show (s.setDataWord i v).data[k.val] = _
  unfold State.setDataWord
  simp only [Vector.getElem_set]
  have hk := Nat.div_add_mod k.val 4
  have hr : k.val % 4 < 4 := Nat.mod_lt _ (by omega)
  by_cases hq : k.val / 4 = i.val
  · rw [if_pos hq]
    interval_cases h : k.val % 4
    · rw [if_neg (by omega), if_neg (by omega), if_neg (by omega), if_pos (by omega)]
    · rw [if_neg (by omega), if_neg (by omega), if_pos (by omega)]
    · rw [if_neg (by omega), if_pos (by omega)]
    · rw [if_pos (by omega)]
  · rw [if_neg hq, if_neg (by omega), if_neg (by omega), if_neg (by omega), if_neg (by omega)]
    rfl

/-- The four bytes of a word of a 64-byte window. -/
theorem le32_window (d : Vector Byte 64) (i : Fin 16) :
    le32 d.toList (4 * i.val) = d[4 * i.val + 3] ++ d[4 * i.val + 2] ++ d[4 * i.val + 1] ++ d[4 * i.val] := by
  have hi := i.isLt
  simp [le32, List.getD_eq_getElem?_getD, show 4 * i.val + 3 < 64 by omega, show 4 * i.val + 2 < 64 by omega,
    show 4 * i.val + 1 < 64 by omega, show 4 * i.val < 64 by omega]

end Sys2Proof.Machine
end

