-- ==== Sys2Proof/Laws/Decode.lean ====
section
/-! SUPPORT. Laws of the encoding: the opcode map is injective, the fields read from an assembled word, and which bits a format
reserves. -/

namespace Sys2Proof

theorem Op.mem_all (o : Op) : o ∈ Op.all := by cases o <;> decide

/-- Each opcode names its own row (30_encoding.md R87). -/
@[simp] theorem Op.ofCode_code (o : Op) : Op.ofCode o.code = some o := by cases o <;> decide

theorem Op.code_of_ofCode {b : Byte} {o : Op} (h : Op.ofCode b = some o) : o.code = b := by
  simpa using List.find?_some h

theorem Op.ofCode_eq_some_iff {b : Byte} {o : Op} : Op.ofCode b = some o ↔ o.code = b :=
  ⟨Op.code_of_ofCode, fun h => h ▸ Op.ofCode_code o⟩

/-- A mask is the format's reserved bits and the opcode's bits (30_encoding.md R82 to R87). -/
theorem Op.mask_eq (o : Op) : o.mask = o.format.reserved ||| 0xFF := by cases o <;> decide

theorem Op.pattern_eq (o : Op) : o.pattern = 0#24 ++ o.code := by cases o <;> decide

theorem opcodeField_append (hi : BitVec 24) (lo : Byte) : opcodeField (hi ++ lo) = lo := by
  unfold opcodeField
  ext i h
  simp only [BitVec.getElem_extractLsb', Nat.zero_add]
  rw [BitVec.getLsbD_append]
  simp [h]

/-- A decoded word: its opcode is a row's, its reserved bits are 0, and its command is the row's with the word's operands. -/
theorem decode_eq_ok_iff {c : Word} {i : Instr} :
    decode c = .ok i ↔ ∃ o : Op, o.code = opcodeField c ∧ c &&& o.format.reserved = 0 ∧ o.assemble c = i := by
  unfold decode
  split
  · rename_i h
    constructor
    · intro h'; cases h'
    · rintro ⟨o, ho, -, -⟩
      rw [← ho, Op.ofCode_code] at h; cases h
  · rename_i o h
    have ho := Op.code_of_ofCode h
    constructor
    · intro h'
      split at h'
      · exact ⟨o, ho, ‹_›, by cases h'; rfl⟩
      · cases h'
    · rintro ⟨o', ho', hr, rfl⟩
      have : o' = o := by
        have := Op.ofCode_code o'
        rw [ho', h] at this
        exact (Option.some.inj this).symm
      subst this
      simp [hr]

@[simp] theorem Op.assemble_op (o : Op) (c : Word) : (o.assemble c).op = o := by cases o <;> rfl

theorem lenField_lt (c : Word) : lenField c < 128 := (c.extractLsb' 8 7).isLt

theorem nlenField_lt (c : Word) : nlenField c < 128 := (c.extractLsb' 16 7).isLt

theorem roundsField_lt (c : Word) : roundsField c < 65536 := (c.extractLsb' 16 16).isLt

/-- A decoded command is well formed: every operand fits its field (30_encoding.md R86). -/
theorem Op.assemble_wellFormed (o : Op) (c : Word) : (o.assemble c).WellFormed := by
  cases o <;> simp [Op.assemble, Instr.WellFormed, Instr.wf, lenField_lt, nlenField_lt, roundsField_lt]

/-! The fields of an assembled word (R89), format by format. -/

@[simp] theorem opcodeField_encodeN (o : Op) : opcodeField (encodeN o) = o.code := opcodeField_append _ _

@[simp] theorem opcodeField_encodeL (o : Op) (len : Nat) : opcodeField (encodeL o len) = o.code := opcodeField_append _ _

@[simp] theorem opcodeField_encodeK (o : Op) (klen nlen : Nat) : opcodeField (encodeK o klen nlen) = o.code :=
  opcodeField_append _ _

@[simp] theorem opcodeField_encodeR (o : Op) (rounds : Nat) : opcodeField (encodeR o rounds) = o.code :=
  opcodeField_append _ _

theorem reserved_encodeN (o : Op) : encodeN o &&& Format.n.reserved = 0 := by
  unfold encodeN Format.reserved
  ext i h
  simp only [BitVec.getElem_and, BitVec.getElem_append]
  rcases Nat.lt_or_ge i 16 with h1 | h1
  · interval_cases i <;> simp
  · interval_cases i <;> simp

theorem reserved_encodeL (o : Op) (len : Nat) : encodeL o len &&& Format.l.reserved = 0 := by
  unfold encodeL Format.reserved
  ext i h
  simp only [BitVec.getElem_and, BitVec.getElem_append]
  rcases Nat.lt_or_ge i 16 with h1 | h1
  · interval_cases i <;> simp
  · interval_cases i <;> simp

theorem reserved_encodeK (o : Op) (klen nlen : Nat) : encodeK o klen nlen &&& Format.k.reserved = 0 := by
  unfold encodeK Format.reserved
  ext i h
  simp only [BitVec.getElem_and, BitVec.getElem_append]
  rcases Nat.lt_or_ge i 16 with h1 | h1
  · interval_cases i <;> simp
  · interval_cases i <;> simp

theorem reserved_encodeR (o : Op) (rounds : Nat) : encodeR o rounds &&& Format.r.reserved = 0 := by
  unfold encodeR Format.reserved
  ext i h
  simp only [BitVec.getElem_and, BitVec.getElem_append]
  rcases Nat.lt_or_ge i 16 with h1 | h1
  · interval_cases i <;> simp
  · interval_cases i <;> simp

theorem lenField_encodeL (o : Op) (len : Nat) (h : len < 128) : lenField (encodeL o len) = len := by
  unfold encodeL lenField
  have : BitVec.extractLsb' 8 7 (0#17 ++ BitVec.ofNat 7 len ++ o.code) = BitVec.ofNat 7 len := by
    ext i h
    simp
    grind
  rw [this, BitVec.toNat_ofNat]
  omega

theorem lenField_encodeK (o : Op) (klen nlen : Nat) (h : klen < 128) : lenField (encodeK o klen nlen) = klen := by
  unfold encodeK lenField
  have : BitVec.extractLsb' 8 7 (0#9 ++ BitVec.ofNat 7 nlen ++ 0#1 ++ BitVec.ofNat 7 klen ++ o.code) = BitVec.ofNat 7 klen := by
    ext i h
    simp
    grind
  rw [this, BitVec.toNat_ofNat]
  omega

theorem nlenField_encodeK (o : Op) (klen nlen : Nat) (h : nlen < 128) : nlenField (encodeK o klen nlen) = nlen := by
  unfold encodeK nlenField
  have : BitVec.extractLsb' 16 7 (0#9 ++ BitVec.ofNat 7 nlen ++ 0#1 ++ BitVec.ofNat 7 klen ++ o.code) = BitVec.ofNat 7 nlen := by
    ext i h
    simp
    grind
  rw [this, BitVec.toNat_ofNat]
  omega

theorem roundsField_encodeR (o : Op) (rounds : Nat) (h : rounds < 65536) : roundsField (encodeR o rounds) = rounds := by
  unfold encodeR roundsField
  have : BitVec.extractLsb' 16 16 (BitVec.ofNat 16 rounds ++ 0#8 ++ o.code) = BitVec.ofNat 16 rounds := by
    ext i h
    simp
    grind
  rw [this, BitVec.toNat_ofNat]
  omega

/-- Decoding a word of format N (30_encoding.md R82). -/
theorem decode_encodeN (o : Op) (h : o.format = .n) : decode (encodeN o) = .ok (o.assemble (encodeN o)) :=
  decode_eq_ok_iff.2 ⟨o, by simp, by rw [h]; exact reserved_encodeN o, rfl⟩

/-- Decoding a word of format L (30_encoding.md R83). -/
theorem decode_encodeL (o : Op) (len : Nat) (h : o.format = .l) :
    decode (encodeL o len) = .ok (o.assemble (encodeL o len)) :=
  decode_eq_ok_iff.2 ⟨o, by simp, by rw [h]; exact reserved_encodeL o len, rfl⟩

/-- Decoding a word of format K (30_encoding.md R84). -/
theorem decode_encodeK (o : Op) (klen nlen : Nat) (h : o.format = .k) :
    decode (encodeK o klen nlen) = .ok (o.assemble (encodeK o klen nlen)) :=
  decode_eq_ok_iff.2 ⟨o, by simp, by rw [h]; exact reserved_encodeK o klen nlen, rfl⟩

/-- Decoding a word of format R (30_encoding.md R85). -/
theorem decode_encodeR (o : Op) (rounds : Nat) (h : o.format = .r) :
    decode (encodeR o rounds) = .ok (o.assemble (encodeR o rounds)) :=
  decode_eq_ok_iff.2 ⟨o, by simp, by rw [h]; exact reserved_encodeR o rounds, rfl⟩

end Sys2Proof
end

