-- ==== Sys2Proof/Laws/PerInstr.lean ====
section
/-! SUPPORT. The per-instruction family `RoundTrip`: a well-formed command is decoded back from its word, one lemma for each
constructor (30_encoding.md R82 to R89). -/

namespace Sys2Proof.Laws.RoundTrip

/-- Decoding the word of a well-formed command gives the command back. -/
def Statement (i : Instr) : Prop := i.WellFormed → decode (encode i) = .ok i

theorem scConfig (rounds : Nat) : Statement (.scConfig rounds) := fun h =>
  (decode_encodeR .scConfig rounds rfl).trans (by simp [Op.assemble, roundsField_encodeR _ _ (of_decide_eq_true h)])

theorem scInit (klen nlen : Nat) : Statement (.scInit klen nlen) := fun h => by
  have h' : klen < 128 ∧ nlen < 128 := by simpa [Instr.WellFormed, Instr.wf] using h
  exact (decode_encodeK .scInit klen nlen rfl).trans
    (by simp [Op.assemble, lenField_encodeK _ _ _ h'.1, nlenField_encodeK _ _ _ h'.2])

theorem scGetBlock : Statement .scGetBlock := fun _ => decode_encodeN .scGetBlock rfl

theorem scGetNextBlock : Statement .scGetNextBlock := fun _ => decode_encodeN .scGetNextBlock rfl

theorem scGetKey : Statement .scGetKey := fun _ => decode_encodeN .scGetKey rfl

theorem scGetNonce : Statement .scGetNonce := fun _ => decode_encodeN .scGetNonce rfl

theorem scReset : Statement .scReset := fun _ => decode_encodeN .scReset rfl

theorem macKeyAppend (len : Nat) : Statement (.macKeyAppend len) := fun h =>
  (decode_encodeL .macKeyAppend len rfl).trans (by simp [Op.assemble, lenField_encodeL _ _ (of_decide_eq_true h)])

theorem macKeyCommit : Statement .macKeyCommit := fun _ => decode_encodeN .macKeyCommit rfl

theorem macUpdate (len : Nat) : Statement (.macUpdate len) := fun h =>
  (decode_encodeL .macUpdate len rfl).trans (by simp [Op.assemble, lenField_encodeL _ _ (of_decide_eq_true h)])

theorem macFinalize : Statement .macFinalize := fun _ => decode_encodeN .macFinalize rfl

theorem macFinalizeData (len : Nat) : Statement (.macFinalizeData len) := fun h =>
  (decode_encodeL .macFinalizeData len rfl).trans
    (by simp [Op.assemble, lenField_encodeL _ _ (of_decide_eq_true h)])

theorem macReset : Statement .macReset := fun _ => decode_encodeN .macReset rfl

theorem hashReset : Statement .hashReset := fun _ => decode_encodeN .hashReset rfl

theorem hashUpdate (len : Nat) : Statement (.hashUpdate len) := fun h =>
  (decode_encodeL .hashUpdate len rfl).trans (by simp [Op.assemble, lenField_encodeL _ _ (of_decide_eq_true h)])

theorem hashFinal : Statement .hashFinal := fun _ => decode_encodeN .hashFinal rfl

end Sys2Proof.Laws.RoundTrip
end

