-- ==== Sys2Proof/Laws/Step.lean ====
section
/-! SUPPORT. What a step and a command can do, said once: the four kinds of step, the engine's move, the two ways a command ends with
what it leaves alone, and what the invariant gives at the guards. -/

namespace Sys2Proof.Machine

/-- A next state is reached in four ways: weak fairness with no turn listed, a host access, the engine's turn, a reset event. -/
theorem step_cases {s t : State} (e : step s = .next t) :
    (s.turns = [] ∧ engineTurn s = .next t) ∨
    (∃ a rest, s.turns = .host a :: rest ∧ t = State.hostAccess { s with turns := rest } a) ∨
    (∃ rest, s.turns = .engine :: rest ∧ engineTurn { s with turns := rest } = .next t) ∨
    (∃ rest, s.turns = .reset :: rest ∧ t = State.resetEvent { s with turns := rest }) := by
  unfold step at e
  split at e
  · split at e
    · exact .inl ⟨‹_›, e⟩
    · cases e
  · cases e; exact .inr (.inl ⟨_, _, ‹_›, rfl⟩)
  · exact .inr (.inr (.inl ⟨_, ‹_›, e⟩))
  · cases e; exact .inr (.inr (.inr ⟨_, ‹_›, rfl⟩))

/-- At the engine's move the step is the engine step on the pending word (60_exceptions.md R221). -/
theorem step_engine {s : State} {c : Word} {rest : List Turn} (hp : s.pending = some c) (he : s.engineNext rest) :
    step s = engineStep c { s with turns := rest } := by
  rcases he with h | ⟨h, rfl⟩
  · unfold step; rw [h]; simp [engineTurn, hp]
  · have e : { s with turns := ([] : List Turn) } = s := by rw [← h]
    rw [e]
    unfold step; rw [h]
    simp [State.busy, engineTurn, hp]

/-- A run whose first step answers a next state goes on from there. -/
theorem run_succ {k : Nat} {s t : State} (h : step s = .next t) : core.run (k + 1) s = core.run k t := by
  have h' : core.step s = .next t := h
  simp only [Host.Core.run, h']

theorem run_one (s : State) : core.run 1 s = step s := by
  have h : core.step s = step s := rfl
  simp only [Host.Core.run, h]
  cases step s <;> rfl

/-- A decoded command is well formed. -/
theorem decode_wellFormed {c : Word} {i : Instr} (h : decode c = .ok i) : i.WellFormed := by
  obtain ⟨o, _, _, rfl⟩ := decode_eq_ok_iff.1 h
  exact o.assemble_wellFormed c

/-- What a command that ends without an error leaves alone, from the state s before it to the state t it completes. -/
structure CommandFrame (i : Instr) (s t : State) : Prop where
  data : t.data = s.data
  ctrLo : t.ctrLo = s.ctrLo
  ctrHi : t.ctrHi = s.ctrHi
  fault : t.fault = s.fault
  turns : t.turns = s.turns
  rdata : t.rdata = s.rdata
  sc : i.unit ≠ .sc → t.sc = s.sc
  mc : i.unit ≠ .mc → t.mc = s.mc
  hs : i.unit ≠ .hs → t.hs = s.hs
  result : ∀ n, i.outBytes = some n → ∃ r : List Byte, r.length = n ∧ n ≤ 64 ∧ t.out = block64 r ∧ t.outLen = BitVec.ofNat 7 n
  noResult : i.outBytes = none → t.out = s.out ∧ t.outLen = s.outLen

/-- A command ends in one of two ways: an error, which changes only STATUS, or completion of a state that keeps the frame. -/
theorem exec_cases {i : Instr} {s t : State} (e : exec i s = .next t) :
    (∃ ec, ec ≠ .ok ∧ t = s.raiseError ec) ∨ (∃ s' : State, t = s'.complete ∧ CommandFrame i s s') := by
  cases i with
  | scConfig r =>
    simp only [exec, execScConfig] at e
    split at e <;> cases e
    · exact .inl ⟨_, by decide, rfl⟩
    · exact .inr ⟨_, rfl, by constructor <;> simp [Instr.unit, Instr.outBytes]⟩
  | scInit k n =>
    simp only [exec, execScInit] at e
    split at e
    · cases e; exact .inl ⟨_, by decide, rfl⟩
    · split at e <;> cases e
      · exact .inl ⟨_, by decide, rfl⟩
      · exact .inr ⟨_, rfl, by constructor <;> simp [Instr.unit, Instr.outBytes]⟩
  | scGetBlock =>
    obtain ⟨_, rfl⟩ | ⟨_, st, hst, e⟩ := whenKeyed_next e
    · exact .inl ⟨_, by decide, rfl⟩
    · cases e
      exact .inr ⟨_, rfl, by constructor <;> simp [Instr.unit, Instr.outBytes, emitBlock]; exact ⟨_, salsablock_length _ _ _, rfl⟩⟩
  | scGetNextBlock =>
    obtain ⟨_, rfl⟩ | ⟨_, st, hst, e⟩ := whenKeyed_next e
    · exact .inl ⟨_, by decide, rfl⟩
    · cases e
      exact .inr ⟨_, rfl, by constructor <;> simp [Instr.unit, Instr.outBytes, emitBlock]; exact ⟨_, salsablock_length _ _ _, rfl⟩⟩
  | scGetKey =>
    obtain ⟨_, rfl⟩ | ⟨_, st, hst, e⟩ := whenKeyed_next e
    · exact .inl ⟨_, by decide, rfl⟩
    · cases e; exact .inr ⟨_, rfl, by constructor <;> simp [Instr.unit, Instr.outBytes]; exact ⟨_, stateKey_length _, rfl⟩⟩
  | scGetNonce =>
    obtain ⟨_, rfl⟩ | ⟨_, st, hst, e⟩ := whenKeyed_next e
    · exact .inl ⟨_, by decide, rfl⟩
    · cases e; exact .inr ⟨_, rfl, by constructor <;> simp [Instr.unit, Instr.outBytes]; exact ⟨_, stateNonce_length _, rfl⟩⟩
  | scReset => cases e; exact .inr ⟨_, rfl, by constructor <;> simp [Instr.unit, Instr.outBytes]⟩
  | macKeyAppend n =>
    simp only [exec, execMacKeyAppend] at e
    split at e
    · cases e; exact .inl ⟨_, by decide, rfl⟩
    · split at e <;> cases e
      · exact .inl ⟨_, by decide, rfl⟩
      · exact .inr ⟨_, rfl, by constructor <;> simp [Instr.unit, Instr.outBytes]⟩
  | macKeyCommit => cases e; exact .inr ⟨_, rfl, by constructor <;> simp [Instr.unit, Instr.outBytes]⟩
  | macUpdate n =>
    simp only [exec, execMacUpdate] at e
    split at e
    · cases e; exact .inl ⟨_, by decide, rfl⟩
    · obtain ⟨_, rfl⟩ | ⟨_, rfl⟩ | ⟨hp, c, hc, e⟩ := whenReady_next e
      · exact .inl ⟨_, by decide, rfl⟩
      · exact .inl ⟨_, by decide, rfl⟩
      · split at e <;> cases e
        · exact .inl ⟨_, by decide, rfl⟩
        · exact .inr ⟨_, rfl, by constructor <;> simp [Instr.unit, Instr.outBytes]⟩
  | macFinalize =>
    obtain ⟨_, rfl⟩ | ⟨_, rfl⟩ | ⟨hp, c, hc, e⟩ := whenReady_next e
    · exact .inl ⟨_, by decide, rfl⟩
    · exact .inl ⟨_, by decide, rfl⟩
    · obtain ⟨kp, hk, rfl⟩ := finishMac_next e
      exact .inr ⟨_, rfl, by constructor <;> simp [Instr.unit, Instr.outBytes]; exact ⟨_, macTag_length _ _, rfl⟩⟩
  | macFinalizeData n =>
    simp only [exec, execMacFinalizeData] at e
    split at e
    · cases e; exact .inl ⟨_, by decide, rfl⟩
    · obtain ⟨_, rfl⟩ | ⟨_, rfl⟩ | ⟨hp, c, hc, e⟩ := whenReady_next e
      · exact .inl ⟨_, by decide, rfl⟩
      · exact .inl ⟨_, by decide, rfl⟩
      · split at e
        · cases e; exact .inl ⟨_, by decide, rfl⟩
        · obtain ⟨kp, hk, rfl⟩ := finishMac_next e
          exact .inr ⟨_, rfl, by constructor <;> simp [Instr.unit, Instr.outBytes]; exact ⟨_, macTag_length _ _, rfl⟩⟩
  | macReset =>
    simp only [exec, execMacReset] at e
    split at e
    · cases e; exact .inl ⟨_, by decide, rfl⟩
    · obtain ⟨kp, hk, e⟩ := withKeyPad_next e
      cases e; exact .inr ⟨_, rfl, by constructor <;> simp [Instr.unit, Instr.outBytes]⟩
  | hashReset => cases e; exact .inr ⟨_, rfl, by constructor <;> simp [Instr.unit, Instr.outBytes]⟩
  | hashUpdate n =>
    simp only [exec, execHashUpdate] at e
    split at e
    · cases e; exact .inl ⟨_, by decide, rfl⟩
    · split at e <;> cases e
      · exact .inl ⟨_, by decide, rfl⟩
      · exact .inr ⟨_, rfl, by constructor <;> simp [Instr.unit, Instr.outBytes]⟩
  | hashFinal => cases e; exact .inr ⟨_, rfl, by constructor <;> simp [Instr.unit, Instr.outBytes]; exact ⟨_, sha256final_length _, rfl⟩⟩

/-- A command reads none of the latches, ENG.pending, FAULT, the turns and the value last read. -/
theorem exec_outside {i : Instr} {s t : State} (e : exec i s = .next t) (done err : Bool) (ec : ErrCode) (p : Option Word)
    (f : FaultSet) (turns : List Turn) (rdata : Option Word) :
    exec i { s with done := done, err := err, errCode := ec, pending := p, fault := f, turns := turns, rdata := rdata } =
      .next { t with fault := f, turns := turns, rdata := rdata } := by
  cases i
  all_goals simp only [exec, execScConfig, execScInit, execScGetBlock, execScGetNextBlock, execScGetKey, execScGetNonce,
    execScReset, execMacKeyAppend, execMacKeyCommit, execMacUpdate, execMacFinalize, execMacFinalizeData, execMacReset,
    execHashReset, execHashUpdate, execHashFinal, whenKeyed, whenReady, withKeyPad, finishMac] at e ⊢
  all_goals repeat' split at e
  all_goals cases e
  all_goals (simp [*, -emitBlock_sc, -emitBlock_out, emitBlock, State.complete, State.latchSuccess, State.putResult] <;>
    first | rfl | exact ⟨rfl, rfl⟩)

theorem state_of_keyed {s : State} (h : s.Inv) (hk : s.sc.keyed = true) : ∃ st, s.sc.state = some st := by
  rw [h.cipher.keyed_iff] at hk; exact Option.isSome_iff_exists.1 hk

theorem kpad_of_keyed {s : State} (h : s.Inv) (hk : s.mc.phase ≠ .unkeyed) : ∃ kp, s.mc.kpad = some kp :=
  Option.ne_none_iff_exists'.1 fun h' => hk (h.mac.kpad_iff.1 h')

theorem ictx_of_ready {s : State} (h : s.Inv) (hk : s.mc.phase = .ready) : ∃ c, s.mc.ictx = some c :=
  Option.isSome_iff_exists.1 (h.mac.ictx_iff.2 hk)

/-- Under the invariant `whenKeyed` answers a next state if its continuation does. -/
theorem whenKeyed_total {s : State} (h : s.Inv) (k : Vector Word 16 → Result)
    (hk : ∀ st, s.sc.state = some st → ∃ t, k st = .next t) : ∃ t, whenKeyed s k = .next t := by
  cases hb : s.sc.keyed
  · exact ⟨_, whenKeyed_of_not k hb⟩
  · obtain ⟨st, hst⟩ := state_of_keyed h hb
    rw [whenKeyed_of_state k hb hst]
    exact hk st hst

/-- Under the invariant `whenReady` answers a next state if its continuation does. -/
theorem whenReady_total {s : State} (h : s.Inv) (k : ShaContext → Result)
    (hk : ∀ c kp, s.mc.kpad = some kp → s.mc.ictx = some c → ∃ t, k c = .next t) : ∃ t, whenReady s k = .next t := by
  cases hp : s.mc.phase
  · exact ⟨_, whenReady_of_unkeyed k hp⟩
  · obtain ⟨c, hc⟩ := ictx_of_ready h hp
    obtain ⟨kp, hkp⟩ := kpad_of_keyed h (by simp [hp])
    rw [whenReady_of_context k hp hc]
    exact hk c kp hkp hc
  · exact ⟨_, whenReady_of_finalized k hp⟩

/-- The invariant does not speak of the turns, of FAULT or of the value last read. -/
theorem State.Inv.outside {s : State} (h : s.Inv) (turns : List Turn) (fault : FaultSet) (rdata : Option Word) :
    State.Inv { s with turns := turns, fault := fault, rdata := rdata } :=
  ⟨h.cipher, h.mac, h.hash, h.hash_absorbed, ⟨h.latch.1, h.latch.2, h.latch.3⟩, ⟨h.window.1, h.window.2⟩⟩

end Sys2Proof.Machine
end

