-- ==== Sys2Proof/Tests/Slice0.lean ====
section
/-! SUPPORT. Tests of one step each, with expected values from the spec (95_test_vectors.md, the examples of the command rules), the
smoke test of WellFormed, the decoding of words written out from the spec's encoding, and for each statement that has hypotheses a
theorem showing that they can be met together. -/

namespace Sys2Proof.Tests

-- One kernel evaluation at a time: each waiting one holds a thread and its stack, and together they outgrow the memory limit.
set_option Elab.async false

open Sys2Proof Sys2Proof.Machine

/-! ## Helpers -/

/-- Bytes written as numbers. -/
def bytes (l : List Nat) : List Byte := l.map (BitVec.ofNat 8)

/-- The next state of an answer. -/
def nextOf : Result → Option State
  | .next t => some t
  | _ => none

/-- The STATUS word and one more value of the next state. -/
def shows (r : Result) (f : State → α) : Option (Word × α) := (nextOf r).map fun t => (t.statusWord, f t)

/-- A unit keyed with this key and nonce, with 20 rounds. -/
def keyedUnit (key nonce : List Byte) (ctr : BitVec 64) : CipherUnit :=
  { rounds := 20, keyed := true, state := some (initstate key nonce), blockCounter := ctr }

/-- A MAC unit in phase Ready under this key, after this message. -/
def readyUnit (key m : List Byte) : MacUnit :=
  { phase := .ready, kpad := some (normkey key), ictx := some (absorb (primeInner (normkey key)) m), ks := [] }

/-- A MAC unit in phase Finalized under this key. -/
def finalUnit (key : List Byte) : MacUnit := { phase := .finalized, kpad := some (normkey key), ictx := none, ks := [] }

/-- Phase Ready under the empty key, with nothing absorbed. -/
def ready : MacUnit := readyUnit [] []

/-- Phase Finalized under the empty key. -/
def final : MacUnit := finalUnit []

/-- `key`. -/
def keyWord : List Byte := bytes [0x6B, 0x65, 0x79]

/-- `The quick brown fox `. -/
def foxStart : List Byte :=
  bytes [0x54, 0x68, 0x65, 0x20, 0x71, 0x75, 0x69, 0x63, 0x6B, 0x20, 0x62, 0x72, 0x6F, 0x77, 0x6E, 0x20, 0x66, 0x6F, 0x78, 0x20]

/-- `jumps over the lazy dog`. -/
def foxEnd : List Byte :=
  bytes [0x6A, 0x75, 0x6D, 0x70, 0x73, 0x20, 0x6F, 0x76, 0x65, 0x72, 0x20, 0x74, 0x68, 0x65, 0x20, 0x6C, 0x61, 0x7A, 0x79, 0x20,
    0x64, 0x6F, 0x67]

/-- `password`. -/
def password : List Byte := bytes [0x70, 0x61, 0x73, 0x73, 0x77, 0x6F, 0x72, 0x64]

/-- A key whose first byte is 80 and the rest zero (40_salsa20.md R113, R115). -/
def key80 : List Byte := 0x80 :: zeros 31

/-! ## WellFormed: an operand that does not fit its field is refused (R86) -/

theorem test_wf_scConfig : ¬(Instr.scConfig 65536).WellFormed ∧ (Instr.scConfig 65535).WellFormed := by decide
theorem test_wf_scInit_klen : ¬(Instr.scInit 128 8).WellFormed ∧ (Instr.scInit 127 8).WellFormed := by decide
theorem test_wf_scInit_nlen : ¬(Instr.scInit 32 128).WellFormed ∧ (Instr.scInit 32 127).WellFormed := by decide
theorem test_wf_macKeyAppend : ¬(Instr.macKeyAppend 128).WellFormed ∧ (Instr.macKeyAppend 127).WellFormed := by decide
theorem test_wf_macUpdate : ¬(Instr.macUpdate 128).WellFormed ∧ (Instr.macUpdate 127).WellFormed := by decide
theorem test_wf_macFinalizeData : ¬(Instr.macFinalizeData 128).WellFormed ∧ (Instr.macFinalizeData 127).WellFormed := by
  decide
theorem test_wf_hashUpdate : ¬(Instr.hashUpdate 128).WellFormed ∧ (Instr.hashUpdate 127).WellFormed := by decide

/-! ## Decoding: words written out bit by bit, fields from R82 to R85 and R89, opcodes from R87 -/

/-- Format R: ROUNDS, reserved byte, opcode 0x10. -/
theorem test_decode_scConfig : decode 0b0000000000010100_00000000_00010000 = .ok (.scConfig 20) := rfl
/-- Format K: reserved, NLEN, reserved, KLEN, opcode 0x11. -/
theorem test_decode_scInit : decode 0b000000000_0001000_0_0100000_00010001 = .ok (.scInit 32 8) := rfl
/-- Format N: reserved, opcode 0x12, and so on. -/
theorem test_decode_scGetBlock : decode 0b000000000000000000000000_00010010 = .ok .scGetBlock := rfl
theorem test_decode_scGetNextBlock : decode 0b000000000000000000000000_00010011 = .ok .scGetNextBlock := rfl
theorem test_decode_scGetKey : decode 0b000000000000000000000000_00010100 = .ok .scGetKey := rfl
theorem test_decode_scGetNonce : decode 0b000000000000000000000000_00010101 = .ok .scGetNonce := rfl
theorem test_decode_scReset : decode 0b000000000000000000000000_00010110 = .ok .scReset := rfl
/-- Format L: reserved, LEN, opcode 0x20, and so on. -/
theorem test_decode_macKeyAppend : decode 0b00000000000000000_0000011_00100000 = .ok (.macKeyAppend 3) := rfl
theorem test_decode_macKeyCommit : decode 0b000000000000000000000000_00100001 = .ok .macKeyCommit := rfl
theorem test_decode_macUpdate : decode 0b00000000000000000_0010100_00100010 = .ok (.macUpdate 20) := rfl
theorem test_decode_macFinalize : decode 0b000000000000000000000000_00100011 = .ok .macFinalize := rfl
theorem test_decode_macFinalizeData : decode 0b00000000000000000_0010111_00100100 = .ok (.macFinalizeData 23) := rfl
theorem test_decode_macReset : decode 0b000000000000000000000000_00100101 = .ok .macReset := rfl
theorem test_decode_hashReset : decode 0b000000000000000000000000_00110000 = .ok .hashReset := rfl
theorem test_decode_hashUpdate : decode 0b00000000000000000_1000000_00110001 = .ok (.hashUpdate 64) := rfl
theorem test_decode_hashFinal : decode 0b000000000000000000000000_00110010 = .ok .hashFinal := rfl

/-- The all-zero word (R88) and the unassigned opcodes next to the assigned ones (V-ERR-7, V-ERR-8, V-ERR-20). -/
theorem test_decode_unassigned : ∀ w ∈ [0x00, 0x0F, 0x17, 0x1F, 0x26, 0x2F, 0x33, 0xFF],
    decodeTableWord 32 w = none := by decide +kernel
/-- One reserved bit set in each format (V-ERR-13, V-ERR-14, V-ERR-15, V-ERR-21, V-ERR-22). -/
theorem test_decode_reserved : ∀ w ∈ [0x80000012, 0x0008A011, 0x00140110, 0x00008022, 0x00882011],
    decodeTableWord 32 w = none := by decide +kernel
/-- The assembly line of R89. -/
theorem test_assembly : (Instr.scInit 32 8).assembly = "SC_INIT 32, 8" := by decide +kernel

/-! ## One step of each command -/

/-- R112's example: `SC_CONFIG 12` sets the count and drops the key. -/
theorem test_scConfig : shows (exec (.scConfig 12) { State.reset with sc := keyedUnit key80 (zeros 8) 7 }) (·.sc) =
    some (0x00000002, { rounds := 12, keyed := false, state := none, blockCounter := 0 }) := by decide +kernel
/-- V-ERR-5. -/
theorem test_scConfig_odd : shows (exec (.scConfig 7) State.reset) (·.sc) = some (0x00000304, State.reset.sc) := by
  decide +kernel
/-- R113's example. -/
theorem test_scInit : shows (exec (.scInit 32 8) (State.reset.loaded [0x80])) (fun t => t.sc.state.map fun st => st[1]) =
    some (0x00000012, some 0x00000080) := by decide +kernel
/-- V-ERR-4: both lengths wrong. -/
theorem test_scInit_both_wrong : shows (exec (.scInit 16 0) State.reset) (·.sc) = some (0x00000404, State.reset.sc) := by
  decide +kernel
/-- V-SC-1, R114's example: zero key and nonce, 20 rounds, CTR = 0. -/
theorem test_scGetBlock : shows (exec .scGetBlock { State.reset with sc := keyedUnit (zeros 32) (zeros 8) 5 })
    (fun t => (t.out.toList.take 8, t.sc.blockCounter)) =
      some (0x00400012, bytes [0x9A, 0x97, 0xF6, 0x5B, 0x9B, 0x4C, 0x72, 0x1B], 5) := by decide +kernel
/-- V-SC-6: the counter 2^32 stands in word 9 alone. -/
theorem test_scGetBlock_high : (nextOf (exec .scGetBlock
    { State.reset with sc := keyedUnit (zeros 32) (zeros 8) 0, ctrHi := 1 })).map
      (fun t => t.sc.state.map fun st => (st[8], st[9])) = some (some (0, 1)) := by decide +kernel
/-- R115's example, the second block of program P1. -/
theorem test_scGetNextBlock : shows (exec .scGetNextBlock { State.reset with sc := keyedUnit key80 (zeros 8) 1, ctrLo := 9 })
    (fun t => (t.out.toList.take 4, t.sc.blockCounter)) =
      some (0x00400012, bytes [0x8D, 0xA2, 0xB7, 0x4E], 2) := by decide +kernel
/-- R115: at 2^64 - 1 the counter wraps to 0. -/
theorem test_scGetNextBlock_wraps : (nextOf (exec .scGetNextBlock
    { State.reset with sc := keyedUnit key80 (zeros 8) 0xFFFFFFFFFFFFFFFF })).map (·.sc.blockCounter) = some 0 := by
  decide +kernel
/-- R116's example. -/
theorem test_scGetKey : shows (exec .scGetKey
    { State.reset with sc := keyedUnit (bytes ((List.range 32).map (· + 1))) (zeros 8) 0 }) (·.out.toList) =
      some (0x00200012, bytes ((List.range 32).map (· + 1)) ++ List.replicate 32 0) := by decide +kernel
/-- V-ERR-19. -/
theorem test_scGetKey_unkeyed : shows (exec .scGetKey State.reset) (·.outLen) = some (0x00000604, 0) := by decide +kernel
/-- R117's example. -/
theorem test_scGetNonce : shows (exec .scGetNonce
    { State.reset with sc := keyedUnit (zeros 32) (bytes [3, 1, 4, 1, 5, 9, 2, 6]) 0 }) (·.out.toList.take 9) =
      some (0x00080012, bytes [3, 1, 4, 1, 5, 9, 2, 6, 0]) := by decide +kernel
/-- V-ERR-18 and R118: legal without a key, and the counter restarts. -/
theorem test_scReset : shows (exec .scReset State.reset) (·.sc) = some (0x00000002, State.reset.sc) ∧
    (nextOf (exec .scReset { State.reset with sc := keyedUnit key80 (zeros 8) 2 })).map (·.sc) =
      some (keyedUnit key80 (zeros 8) 0) := by decide +kernel
/-- R155's example. -/
theorem test_macKeyAppend : shows (exec (.macKeyAppend 3) (State.reset.loaded keyWord)) (·.mc.ks) =
    some (0x00000002, keyWord) := by decide +kernel
/-- V-ERR-16. -/
theorem test_macKeyAppend_len : shows (exec (.macKeyAppend 65) State.reset) (·.mc) =
    some (0x00000204, State.reset.mc) := by decide +kernel
/-- R156's example, with kpad of V-MAC-3. -/
theorem test_macKeyCommit : shows (exec .macKeyCommit { State.reset with mc := { State.reset.mc with ks := keyWord } })
    (fun t => (t.mc.kpad.map Vector.toList, t.mc.ks)) = some (0x00000022, some (keyWord ++ List.replicate 61 0), []) := by
  decide +kernel
/-- V-MAC-14: a key of 65 bytes is hashed. -/
theorem test_macKeyCommit_long : (nextOf (exec .macKeyCommit
    { State.reset with mc := { State.reset.mc with ks := bytes (List.range 65) } })).map
      (fun t => t.mc.kpad.map fun k => (k.toList.take 4, k.toList.drop 32)) =
        some (some (bytes [0x4B, 0xFD, 0x2C, 0x8B], List.replicate 32 0)) := by decide +kernel
/-- R157's example: 64 + 20 bytes counted, and the last 20 stand in the buffer. -/
theorem test_macUpdate : shows (exec (.macUpdate 20) { State.reset.loaded foxStart with mc := readyUnit keyWord [] })
    (fun t => t.mc.ictx.map fun c => (c.buf, c.cnt)) = some (0x00000022, some (foxStart, 84)) := by decide +kernel
/-- V-ERR-9: E_LEN wins over E_NOT_INIT. -/
theorem test_macUpdate_order : shows (exec (.macUpdate 65) State.reset) (·.mc) = some (0x00000204, State.reset.mc) := by
  decide +kernel
/-- V-MAC-1, R158's example. -/
theorem test_macFinalize : shows (exec .macFinalize { State.reset with mc := readyUnit keyWord (foxStart ++ foxEnd) })
    (·.out.toList) = some (0x00200062, bytes [0xF7, 0xBC, 0x83, 0xF4, 0x30, 0x53, 0x84, 0x24, 0xB1, 0x32, 0x98, 0xE6, 0xAA,
      0x6F, 0xB1, 0x43, 0xEF, 0x4D, 0x59, 0xA1, 0x49, 0x46, 0x17, 0x59, 0x97, 0x47, 0x9D, 0xBC, 0x2D, 0x1A, 0x3C, 0xD8] ++
      List.replicate 32 0) := by decide +kernel
/-- V-ERR-24. -/
theorem test_macFinalize_misuse : (nextOf (exec .macFinalize { State.reset with mc := finalUnit keyWord })).map (·.errCode) =
    some .misuse := by decide +kernel
/-- R159's example. -/
theorem test_macFinalizeData : shows (exec (.macFinalizeData 23)
    { State.reset.loaded foxEnd with mc := readyUnit keyWord foxStart }) (·.out.toList.take 4) =
      some (0x00200062, bytes [0xF7, 0xBC, 0x83, 0xF4]) := by decide +kernel
/-- V-ERR-26: E_LEN wins over E_MISUSE. -/
theorem test_macFinalizeData_order : (nextOf (exec (.macFinalizeData 65)
    { State.reset with mc := finalUnit keyWord })).map (·.errCode) = some .len := by decide +kernel
/-- R160's example: the tag's length stays in OUT_LEN. -/
theorem test_macReset : shows (exec .macReset { State.reset with mc := finalUnit keyWord, outLen := 32 }) (·.mc) =
    some (0x00200022, readyUnit keyWord []) := by decide +kernel
/-- V-ERR-12. -/
theorem test_macReset_unkeyed : shows (exec .macReset State.reset) (·.mc) = some (0x00000604, State.reset.mc) := by
  decide +kernel
/-- R182: 64 constants, K[0] first; the last of the first row, the first of the second and K[63] stand in their places. -/
theorem test_roundConstants : shaK.length = 64 ∧ shaK.take 1 = [0x428a2f98] ∧ (shaK.drop 7).take 2 = [0xab1c5ed5, 0xd807aa98] ∧
    shaK.drop 63 = [0xc67178f2] := by decide +kernel
/-- R185's example: the block of the message "abc". -/
theorem test_compress : (compress shaH0 (bytes [0x61, 0x62, 0x63, 0x80] ++ zeros 52 ++ be64bytes 24)).toList =
    [0xba7816bf, 0x8f01cfea, 0x414140de, 0x5dae2223, 0xb00361a3, 0x96177a9c, 0xb410ff61, 0xf20015ad] := by decide +kernel
/-- R191's example. -/
theorem test_hashReset : shows (exec .hashReset { State.reset with hs := { hctx := absorb shaInit password } }) (·.hs) =
    some (0x00000002, State.reset.hs) := by decide +kernel
/-- R192's example. -/
theorem test_hashUpdate : shows (exec (.hashUpdate 8) (State.reset.loaded password)) (·.hs.hctx) =
    some (0x00000002, { H := shaInit.H, buf := password, cnt := 8 }) := by decide +kernel
/-- V-ERR-27 and V-ERR-28: the limit exactly is legal, one byte more is not. -/
theorem test_hashUpdate_limit :
    (nextOf (exec (.hashUpdate 4) { State.reset with hs := { hctx := { shaInit with cnt := 2 ^ 61 - 4 } } })).map
      (·.statusWord) = some 0x00000804 ∧
    (nextOf (exec (.hashUpdate 3) { State.reset with hs := { hctx := { shaInit with cnt := 2 ^ 61 - 4 } } })).map
      (·.statusWord) = some 0x00000002 := by decide +kernel
/-- V-SHA-7, R193's example. -/
theorem test_hashFinal : shows (exec .hashFinal { State.reset with hs := { hctx := absorb shaInit password } })
    (fun t => (t.out.toList, t.hs)) = some (0x00200002, bytes [0x5E, 0x88, 0x48, 0x98, 0xDA, 0x28, 0x04, 0x71, 0x51, 0xD0,
      0xE5, 0x6F, 0x8D, 0xC6, 0x29, 0x27, 0x73, 0x60, 0x3D, 0x0D, 0x6A, 0xAB, 0xBD, 0xD6, 0x2A, 0x11, 0xEF, 0x72, 0x1D, 0x15,
      0x42, 0xD8] ++ List.replicate 32 0, State.reset.hs) := by decide +kernel
/-- V-SHA-1: a final with nothing absorbed. -/
theorem test_hashFinal_empty : (nextOf (exec .hashFinal State.reset)).map (·.out.toList.take 4) =
    some (bytes [0xE3, 0xB0, 0xC4, 0x42]) := by decide +kernel

/-! ## Host sequences and the register window -/

/-- R90: the polls before each engine turn of a MAC_NEW with two equal appends, 3 and 5 of them, then 1 for the commit. -/
theorem test_macNew_polls :
    (HostSequence.macNew (fun j _ => [3, 5, 1].getD j 0) (zeros 128)).filter (fun t => t = .engine ∨ t = .host (.read 0x04 4)) =
      HostSequence.wait 3 ++ HostSequence.wait 5 ++ HostSequence.wait 1 := by decide +kernel

/-- A word placed by `withFetchWord` runs in the next step. -/
theorem test_withFetchWord : (nextOf (step (State.reset.withFetchWord 32 0x00000016))).map (·.statusWord) =
    some 0x00000002 := by decide +kernel
/-- R56: the word written to offset 0x44 stands in DATA[4..8), least significant byte first. -/
theorem test_write_data : (nextOf (step { State.reset with turns := [.host (.write 0x44 4 0x0079656B)] })).map
    (fun t => (t.data.toList.take 9, t.fault)) = some (bytes [0, 0, 0, 0, 0x6B, 0x65, 0x79, 0, 0], .empty) := by decide +kernel
/-- R52 at the boundary: offset 0x41 and width 2 fault. -/
theorem test_bus_access : (nextOf (step { State.reset with turns := [.host (.read 0x41 4)] })).map
      (fun t => (t.fault.busAccess, t.rdata)) = some (true, none) ∧
    (nextOf (step { State.reset with turns := [.host (.write 0x40 2 1)] })).map (fun t => (t.fault.busAccess, t.data)) =
      some (true, State.reset.data) := by decide +kernel
/-- R254: a second write to CMD while BUSY = 1 adds F_HOST_HAZARD and the first command stays. -/
theorem test_hazard : (nextOf (step { State.reset with pending := some 0x16, turns := [.host (.write 0x00 4 0x30)] })).map
    (fun t => (t.fault.hostHazard, t.pending)) = some (true, some 0x16) := by decide +kernel
/-- R90: `LOAD` of the bytes of `key`, and 65 bytes make two chunks. -/
theorem test_host_sequences : HostSequence.load keyWord = [.host (.write 0x40 4 0x0079656B)] ∧
    (HostSequence.chunks (zeros 65)).map List.length = [64, 1] := by decide +kernel

/-! ## Witnesses: for each statement with hypotheses, a state and operands that meet them together -/

theorem keyedUnit_inv (key nonce : List Byte) (ctr : BitVec 64) : (keyedUnit key nonce ctr).Inv :=
  ⟨(by decide : (20 : BitVec 16).toNat % 2 = 0), (by decide : 2 ≤ (20 : BitVec 16).toNat), rfl, fun st h => (by cases h; exact initstate_constants key nonce), fun h => (by cases h)⟩

theorem readyUnit_inv (key : List Byte) : (readyUnit key []).Inv :=
  ⟨by simp [readyUnit], by simp [readyUnit], fun c h => (by cases h; exact primeInner_wf _),
    fun c kp h h' => (by cases h; cases h'; exact ⟨[], rfl⟩), Nat.zero_le _⟩

theorem finalUnit_inv (key : List Byte) : (finalUnit key).Inv :=
  ⟨by simp [finalUnit], by simp [finalUnit], fun c h => (by cases h), fun c kp h => (by cases h), Nat.zero_le _⟩

theorem ready_inv : ready.Inv := readyUnit_inv []

theorem final_inv : final.Inv := finalUnit_inv []

/-- A state after an earlier command, idle or with a command pending: SC keyed, MC and the turns as given. -/
def sample (mc : MacUnit) (p : Option Word) (turns : List Turn) : State :=
  { State.reset with sc := keyedUnit key80 (zeros 8) 0, mc := mc, pending := p, turns := turns }

theorem sample_inv {mc : MacUnit} (h : mc.Inv) (p : Option Word) (turns : List Turn) : (sample mc p turns).Inv where
  cipher := keyedUnit_inv _ _ _
  mac := h
  hash := shaInit_wf
  hash_absorbed := ⟨[], rfl⟩
  latch := ⟨by simp [sample, State.reset], fun _ => ⟨rfl, rfl⟩, by simp [sample, State.reset]⟩
  window := ⟨Nat.zero_le _, fun i _ h => by
    show (List.replicate 64 (0 : Byte)).getD i 0 = 0
    rw [List.getD_eq_getElem?_getD, List.getElem?_replicate]; simp [h]⟩

theorem sample_ready_ictx (p : Option Word) (turns : List Turn) :
    (sample ready p turns).mc.ictx = some (primeInner (normkey [])) := by
  show some (absorb (primeInner (normkey [])) []) = _
  rw [absorb_nil]

theorem sample_ready_primed (p : Option Word) (turns : List Turn) :
    (sample ready p turns).mc.ictx = some (absorb shaInit (xorPad (normkey []) 0x36)) := by
  rw [sample_ready_ictx, primeInner, ipad]

/-- Every operand at the largest value its field holds. -/
theorem witness_DecodeInvertsEncode : ∀ i ∈ [Instr.scConfig 65535, .scInit 127 127, .macKeyAppend 127, .macUpdate 127,
    .macFinalizeData 127, .hashUpdate 127, .scGetBlock], i.WellFormed := by decide
theorem witness_EncodeInvertsDecode : decode 0xFFFF0010 = .ok (.scConfig 65535) := rfl
theorem witness_DecodeFollowsOpcodeMap : (0x007F7F11 : Word) &&& Op.scInit.mask = Op.scInit.pattern := by decide
theorem witness_IllegalWordsRaiseIllegalCmd :
    decode 0x00000033 = .error .unassignedOpcode ∧ decode 0x00008011 = .error .reservedBits := ⟨rfl, rfl⟩
theorem witness_EncodingIsArithmetic : 65535 < 65536 ∧ 127 < 128 ∧ Instr.hashFinal.operands = [] := by decide
theorem witness_ResetEventGivesResetValues : (sample final (some 0x16) [.reset]).turns = .reset :: [] := rfl
theorem witness_StepKeepsInvariant : ∃ s t : State, s.Inv ∧ step s = .next t :=
  ⟨sample ready (some 0x23) [.engine], _, sample_inv ready_inv _ _, rfl⟩
theorem witness_StepNeverReadsPoison : (sample ready (some 0x23) [.engine]).Inv := sample_inv ready_inv _ _
theorem witness_StepRunsDecodedCommand :
    (∃ s : State, s.pending = some 0x23 ∧ s.engineNext [] ∧ decode 0x23 = .ok .macFinalize) ∧
    (∃ s : State, s.pending = some 0x17 ∧ s.engineNext [.engine] ∧ decode 0x17 = .error .unassignedOpcode) :=
  ⟨⟨sample ready (some 0x23) [], rfl, .inr ⟨rfl, rfl⟩, rfl⟩,
    ⟨sample ready (some 0x17) [.engine, .engine], rfl, .inl rfl, rfl⟩⟩
theorem witness_PendingCommandCompletesOnce :
    ∃ (s : State) (c : Word) (rest : List Turn), s.Inv ∧ s.pending = some c ∧ s.engineNext rest :=
  ⟨sample ready (some 0x23) [.engine], 0x23, [], sample_inv ready_inv _ _, rfl, .inl rfl⟩
theorem witness_ErrorChangesOnlyStatus : ∃ (i : Instr) (s t : State), exec i s = .next t ∧ t.err = true :=
  ⟨.scGetBlock, State.reset, _, rfl, rfl⟩
theorem witness_SuccessSetsDone : ∃ (i : Instr) (s t : State), exec i s = .next t ∧ t.err = false :=
  ⟨.scGetKey, sample ready none [], _, rfl, rfl⟩
theorem witness_ErrorReportedIsFirstInOrder : (sample final (some 0x4124) []).Inv ∧
    decode 0x4124 = .ok (.macFinalizeData 65) ∧ decode 0x00 = .error .unassignedOpcode :=
  ⟨sample_inv final_inv _ _, rfl, rfl⟩
theorem witness_OutputWindowRule :
    (∃ (i : Instr) (s t : State) (n : Nat), exec i s = .next t ∧ i.outBytes = some n ∧ t.err = false) ∧
    (∃ (i : Instr) (s t : State), exec i s = .next t ∧ i.outBytes = none) ∧
    (∃ (i : Instr) (s t : State), exec i s = .next t ∧ t.err = true) ∧ State.reset.pending = none :=
  ⟨⟨.scGetNextBlock, sample ready none [], _, 64, rfl, rfl, rfl⟩, ⟨.scReset, State.reset, _, rfl, rfl⟩,
    ⟨.macFinalize, State.reset, _, rfl, rfl⟩, rfl⟩
/-- A command of each unit, so that each clause's premise is met. -/
theorem witness_UnitsChangeNoOtherUnit :
    (∃ t, exec .scGetBlock (sample ready none []) = .next t) ∧
    (∃ t, exec .macFinalize (sample ready none []) = .next t) ∧
    (∃ t, exec .hashFinal (sample ready none []) = .next t) ∧ Instr.macFinalize.unit ≠ .sc ∧
    Instr.scGetBlock.unit ≠ .mc ∧ Instr.scGetBlock.unit ≠ .hs := ⟨⟨_, rfl⟩, ⟨_, rfl⟩, ⟨_, rfl⟩, by decide, by decide, by decide⟩
theorem witness_UnitsDoNotInfluenceEachOther :
    (∃ t, exec .macFinalize (sample ready none []) = .next t) ∧ Instr.macFinalize.unit ≠ .sc ∧
    Instr.macFinalize.unit ≠ .hs ∧ Instr.hashFinal.unit ≠ .mc := ⟨⟨_, rfl⟩, by decide, by decide, by decide⟩
theorem witness_StatusWordFields : (sample ready none []).pending = none := rfl
/-- The three ways an access is illegal or legal: width 2, offset 0xFF, and the last legal offset. -/
theorem witness_IllegalAccessFaults :
    (∃ (s : State) (a : Access), s.turns = .host a :: [] ∧ a.width ≠ 4) ∧
    (∃ (s : State) (a : Access), s.turns = .host a :: [] ∧ a.off.toNat % 4 ≠ 0) ∧
    (∃ (s : State) (a : Access), s.turns = .host a :: [] ∧ a.width = 4 ∧ a.off.toNat % 4 = 0) :=
  ⟨⟨{ State.reset with turns := [.host (.read 0x40 2)] }, _, rfl, by decide⟩,
    ⟨{ State.reset with turns := [.host (.write 0xFF 4 0)] }, _, rfl, by decide⟩,
    ⟨{ State.reset with turns := [.host (.read 0xFC 4)] }, _, rfl, by decide, by decide⟩⟩
theorem witness_BusyAllowsOnlyStatusRead :
    (∃ s : State, s.turns = .host (.read 0x04 4) :: [] ∧ s.pending ≠ none) ∧
    (∃ (s : State) (a : Access), s.turns = .host a :: [] ∧ s.pending ≠ none ∧ a ≠ .read 0x04 4) :=
  ⟨⟨sample ready (some 0) [.host (.read 0x04 4)], rfl, by decide⟩,
    ⟨sample ready (some 0) [.host (.write 0x04 4 0)], _, rfl, by decide, by decide⟩⟩
theorem witness_WriteToCmdIssues : State.reset.pending = none := rfl
theorem witness_ReadsReturnRegisters : (sample ready none []).pending = none := rfl
theorem witness_WritesFollowRegisterMap : (sample final none []).pending = none := rfl
theorem witness_DataWordReadsBack : ∃ s : State, s.pending = none ∧
    s.turns = .host (.write (BitVec.ofNat 8 (0x40 + 4 * (15 : Fin 16).val)) 4 0xDEADBEEF) ::
      .host (.read (BitVec.ofNat 8 (0x40 + 4 * (14 : Fin 16).val)) 4) :: [] :=
  ⟨{ State.reset with turns := [.host (.write 0x7C 4 0xDEADBEEF), .host (.read 0x78 4)] }, rfl, by decide⟩
theorem witness_FaultSetOnlyGrows : ∃ s t : State, step s = .next t ∧ s.fault.hostHazard = true ∧ s.fault.busAccess = true :=
  ⟨{ State.reset with fault := { hostHazard := true, busAccess := true }, turns := [.reset] }, _, rfl, rfl, rfl⟩
theorem witness_HazardsDoNotReachTheCommand : ∃ (s : State) (c : Word), s.pending = some c ∧
    s.turns = [Access.write 0x00 4 0, .read 0x04 4].map .host ++ .engine :: [.engine] :=
  ⟨sample ready (some 0x23) [.host (.write 0x00 4 0), .host (.read 0x04 4), .engine, .engine], _, rfl, rfl⟩
theorem witness_DoCommandRunsToCompletion : ∃ (s : State) (i : Instr) (lat : Instr → Nat), s.Inv ∧ s.pending = none ∧
    i.WellFormed ∧ s.turns = HostSequence.doCommand lat i ++ [] :=
  ⟨sample ready none (HostSequence.doCommand (fun _ => 2) (.hashUpdate 127) ++ []), .hashUpdate 127, fun _ => 2,
    sample_inv ready_inv _ _, rfl, by decide, rfl⟩
theorem witness_IdleEngineHasNoStep : State.reset.pending = none ∧ State.reset.turns = [] ∧
    (sample ready none [.engine]).pending = none ∧ (sample ready none [.engine]).turns = .engine :: [] :=
  ⟨rfl, rfl, rfl, rfl⟩

/-- Operands at the boundaries of R112: 2 and 65534 are legal, 0, 1 and 65535 are not; and a word with a reserved bit. -/
theorem witness_ScConfigSetsRoundsAndDropsKey : (65534 < 65536 ∧ 65534 ≠ 0 ∧ 65534 % 2 = 0) ∧ (2 ≠ 0 ∧ 2 % 2 = 0) ∧
    (65535 < 65536 ∧ (65535 = 0 ∨ 65535 % 2 = 1)) ∧ (0 < 65536 ∧ (0 = 0 ∨ 0 % 2 = 1)) ∧
    (0x00020110 : Word).extractLsb' 0 8 = 0x10 ∧ (0x00020110 : Word) &&& 0x0000FF00 ≠ 0 ∧
    (0xFFFE0010 : Word) &&& 0x0000FFFF = 0x00000010 := by decide
theorem witness_ScInitLoadsKeyAndNonce :
    (∃ (s : State) (key nonce : List Byte), key.length = 32 ∧ nonce.length = 8 ∧ s.data.toList.take 40 = key ++ nonce) ∧
    (127 < 128 ∧ 0 < 128 ∧ 127 ≠ 32 ∧ 33 ≠ 32 ∧ 7 ≠ 8 ∧ 9 ≠ 8) ∧
    (0x00082011 ||| 0x8000 : Word).extractLsb' 0 8 = 0x11 ∧ (0x00082011 ||| 0x8000 : Word) &&& 0xFF808000 ≠ 0 ∧
    (0x007F7F11 : Word) &&& 0xFF8080FF = 0x00000011 :=
  ⟨⟨State.reset, zeros 32, zeros 8, by decide, by decide, by decide +kernel⟩, by decide, by decide, by decide, by decide⟩
/-- The state for the four read and block commands, keyed and unkeyed. -/
theorem witness_ScGetBlockEmitsBlockAtCtr :
    (∃ (s : State) (st : Vector Word 16), s.sc.keyed = true ∧ s.sc.state = some st) ∧ State.reset.sc.keyed = false ∧
    (0x80000012 : Word).extractLsb' 0 8 = 0x12 ∧ (0x80000012 : Word) &&& 0xFFFFFF00 ≠ 0 ∧
    (0x12 : Word) &&& 0xFFFFFFFF = 0x00000012 :=
  ⟨⟨sample ready none [], _, rfl, rfl⟩, rfl, by decide, by decide, by decide⟩
theorem witness_ScGetNextBlockEmitsAndCounts :
    (∃ (s : State) (st : Vector Word 16), s.sc.keyed = true ∧ s.sc.state = some st ∧ s.sc.blockCounter = 0xFFFFFFFFFFFFFFFF) ∧
    State.reset.sc.keyed = false ∧ (0x00000113 : Word).extractLsb' 0 8 = 0x13 ∧ (0x00000113 : Word) &&& 0xFFFFFF00 ≠ 0 :=
  ⟨⟨{ State.reset with sc := keyedUnit key80 (zeros 8) 0xFFFFFFFFFFFFFFFF }, _, rfl, rfl, rfl⟩, rfl, by decide, by decide⟩
theorem witness_ScGetKeyReadsKeyWords :
    (∃ (s : State) (st : Vector Word 16), s.sc.keyed = true ∧ s.sc.state = some st) ∧ State.reset.sc.keyed = false ∧
    (0x00000114 : Word).extractLsb' 0 8 = 0x14 ∧ (0x00000114 : Word) &&& 0xFFFFFF00 ≠ 0 :=
  ⟨⟨sample ready none [], _, rfl, rfl⟩, rfl, by decide, by decide⟩
theorem witness_ScGetNonceReadsNonceWords :
    (∃ (s : State) (st : Vector Word 16), s.sc.keyed = true ∧ s.sc.state = some st) ∧ State.reset.sc.keyed = false ∧
    (0x00000115 : Word).extractLsb' 0 8 = 0x15 ∧ (0x00000115 : Word) &&& 0xFFFFFF00 ≠ 0 :=
  ⟨⟨sample ready none [], _, rfl, rfl⟩, rfl, by decide, by decide⟩
theorem witness_ScResetZeroesCounter : (0x00000116 : Word).extractLsb' 0 8 = 0x16 ∧
    (0x00000116 : Word) &&& 0xFFFFFF00 ≠ 0 ∧ (0x16 : Word) &&& 0xFFFFFFFF = 0x00000016 := by decide
theorem witness_KeyAndNonceReadBack : ∃ (s t : State) (cmds : List HostedCommand), s.Inv ∧
    exec (.scInit 32 8) s = .next t ∧ (∀ h ∈ cmds, (∀ k n, h.cmd ≠ .scInit k n) ∧ ∀ r, h.cmd ≠ .scConfig r) ∧ cmds ≠ [] :=
  ⟨sample ready none [], _, [⟨Vector.replicate 64 7, 1, 1, .scGetBlock⟩, ⟨Vector.replicate 64 7, 1, 1, .scReset⟩],
    sample_inv ready_inv _ _, rfl, by simp, by simp⟩
theorem witness_BlockDependsOnlyOnKeyNonceRoundsCtr : ∃ (s s' t t' : State) (st st' : Vector Word 16), s.Inv ∧ s'.Inv ∧
    s.sc.state = some st ∧ s'.sc.state = some st' ∧ stateKey st = stateKey st' ∧ stateNonce st = stateNonce st' ∧
    s.sc.rounds = s'.sc.rounds ∧ s.ctrLo = s'.ctrLo ∧ s.ctrHi = s'.ctrHi ∧ exec .scGetBlock s = .next t ∧
    exec .scGetBlock s' = .next t' ∧ s.mc ≠ s'.mc :=
  ⟨sample ready none [], sample final none [], _, _, _, _, sample_inv ready_inv _ _,
    sample_inv final_inv _ _, rfl, rfl, rfl, rfl, rfl, rfl, rfl, rfl, rfl, fun h => by
      have := congrArg MacUnit.phase h
      simp [sample, ready, final, readyUnit, finalUnit] at this⟩
theorem witness_NextBlocksFollowGetBlock : ∃ (s : State) (cmds : List HostedCommand), s.Inv ∧ s.sc.keyed = true ∧
    s.sc.blockCounter = 0 ∧
    (∀ h ∈ cmds, (∀ k n, h.cmd ≠ .scInit k n) ∧ (∀ r, h.cmd ≠ .scConfig r) ∧ h.cmd ≠ .scReset) ∧
    cmds.countP (fun h => decide (h.cmd = .scGetNextBlock)) = 2 :=
  ⟨sample ready none [], [⟨Vector.replicate 64 7, 1, 1, .scGetNextBlock⟩, ⟨Vector.replicate 64 7, 1, 1, .scGetBlock⟩,
    ⟨Vector.replicate 64 7, 1, 1, .scGetNextBlock⟩], sample_inv ready_inv _ _, rfl, rfl, by simp, by decide⟩
theorem witness_DisjointQuarterRoundsCommute :
    ∀ a ∈ [(0 : Fin 16), 4, 8, 12], ∀ b ∈ [(5 : Fin 16), 9, 13, 1], a ≠ b := by decide
theorem witness_LittleEndianConversions : 0 + 3 < (bytes [1, 2, 3, 4]).length := by decide

theorem staging_of_length (n : Nat) : ∃ s : State, s.mc.ks.length = n :=
  ⟨{ State.reset with mc := { State.reset.mc with ks := List.replicate n 0 } }, by simp⟩

/-- Staging up to the limit exactly, beyond the limit, and a length of 65. -/
theorem witness_MacKeyAppendStagesBytes :
    (∃ (n : Nat) (s : State), n ≤ 64 ∧ s.mc.ks.length + n ≤ 2 ^ 61 - 1 ∧ n = 64) ∧ 64 < 65 ∧
    (∃ (n : Nat) (s : State), n ≤ 64 ∧ 2 ^ 61 - 1 < s.mc.ks.length + n) ∧
    (0x00008020 : Word).extractLsb' 0 8 = 0x20 ∧ (0x00008020 : Word) &&& 0xFFFF8000 ≠ 0 ∧
    (0x00007F20 : Word) &&& 0xFFFF80FF = 0x00000020 :=
  ⟨⟨64, State.reset, by decide, by decide, rfl⟩, by decide,
    let ⟨s, h⟩ := staging_of_length (2 ^ 61 - 1)
    ⟨1, s, by decide, h ▸ Nat.lt_succ_self _⟩, by decide, by decide, by decide⟩
theorem witness_MacKeyCommitPrimesInnerHash : (0x00000121 : Word).extractLsb' 0 8 = 0x21 ∧
    (0x00000121 : Word) &&& 0xFFFFFF00 ≠ 0 := by decide
/-- A context whose count is the limit, reached with 64 bytes and passed with one. -/
theorem witness_MacUpdateAbsorbsData :
    (∃ (n : Nat) (s : State) (c : ShaContext), n ≤ 64 ∧ s.mc.phase = .ready ∧ s.mc.ictx = some c ∧ c.cnt + n ≤ 2 ^ 61 - 1) ∧
    64 < 65 ∧ State.reset.mc.phase = .unkeyed ∧ (sample final none []).mc.phase = .finalized ∧
    (∃ (n : Nat) (s : State) (c : ShaContext), n ≤ 64 ∧ s.mc.phase = .ready ∧ s.mc.ictx = some c ∧ 2 ^ 61 - 1 < c.cnt + n) ∧
    (0x00008022 : Word).extractLsb' 0 8 = 0x22 ∧ (0x00008022 : Word) &&& 0xFFFF8000 ≠ 0 :=
  ⟨⟨64, { State.reset with mc := { readyUnit [] [] with ictx := some { shaInit with cnt := 2 ^ 61 - 65 } } }, _,
      by decide, rfl, rfl, by decide⟩, by decide, rfl, rfl,
    ⟨1, { State.reset with mc := { readyUnit [] [] with ictx := some { shaInit with cnt := 2 ^ 61 - 1 } } }, _,
      by decide, rfl, rfl, by decide⟩, by decide, by decide⟩
theorem witness_MacFinalizeEmitsTag :
    (∃ (s : State) (c : ShaContext) (kp : Vector Byte 64), s.mc.phase = .ready ∧ s.mc.ictx = some c ∧ s.mc.kpad = some kp) ∧
    State.reset.mc.phase = .unkeyed ∧ (sample final none []).mc.phase = .finalized ∧
    (0x00000123 : Word).extractLsb' 0 8 = 0x23 ∧ (0x00000123 : Word) &&& 0xFFFFFF00 ≠ 0 :=
  ⟨⟨sample ready none [], _, _, rfl, rfl, rfl⟩, rfl, rfl, by decide, by decide⟩
theorem witness_MacFinalizeDataAbsorbsAndEmitsTag :
    (∃ (n : Nat) (s : State) (c : ShaContext) (kp : Vector Byte 64), n ≤ 64 ∧ s.mc.phase = .ready ∧ s.mc.ictx = some c ∧
      s.mc.kpad = some kp ∧ c.cnt + n ≤ 2 ^ 61 - 1) ∧ 64 < 65 ∧ State.reset.mc.phase = .unkeyed ∧
    (sample final none []).mc.phase = .finalized ∧
    (∃ (n : Nat) (s : State) (c : ShaContext), n ≤ 64 ∧ s.mc.phase = .ready ∧ s.mc.ictx = some c ∧ 2 ^ 61 - 1 < c.cnt + n) ∧
    (0x00008024 : Word).extractLsb' 0 8 = 0x24 ∧ (0x00008024 : Word) &&& 0xFFFF8000 ≠ 0 :=
  ⟨⟨64, { State.reset with mc := { readyUnit [] [] with ictx := some { shaInit with cnt := 2 ^ 61 - 65 } } }, _, _,
      by decide, rfl, rfl, rfl, by decide⟩, by decide, rfl, rfl,
    ⟨1, { State.reset with mc := { readyUnit [] [] with ictx := some { shaInit with cnt := 2 ^ 61 - 1 } } }, _,
      by decide, rfl, rfl, by decide⟩, by decide, by decide⟩
theorem witness_MacResetPrimesInnerHash :
    (∃ (s : State) (kp : Vector Byte 64), s.mc.phase ≠ .unkeyed ∧ s.mc.kpad = some kp) ∧ State.reset.mc.phase = .unkeyed ∧
    (0x00000125 : Word).extractLsb' 0 8 = 0x25 ∧ (0x00000125 : Word) &&& 0xFFFFFF00 ≠ 0 :=
  ⟨⟨sample final none [], _, by simp [sample, final, finalUnit], rfl⟩, rfl, by decide, by decide⟩
/-- A state in each of the three phases, and in phase Ready a context with room for 64 bytes. -/
theorem witness_MacPhaseTable :
    (sample State.reset.mc none []).Inv ∧ (sample State.reset.mc none []).mc.phase = .unkeyed ∧
    (sample final none []).Inv ∧ (sample final none []).mc.phase = .finalized ∧
    (sample ready none []).Inv ∧ (sample ready none []).mc.phase = .ready ∧
    (∀ c, (sample ready none []).mc.ictx = some c → c.cnt + 64 ≤ 2 ^ 61 - 1) :=
  ⟨sample_inv ⟨by decide, by decide, fun c h => (by cases h), fun c kp h => (by cases h), by decide⟩ _ _, rfl,
    sample_inv final_inv _ _, rfl, sample_inv ready_inv _ _, rfl, fun c h => by
      rw [sample_ready_ictx] at h
      rw [← Option.some.inj h, primeInner_cnt]; decide⟩
theorem witness_InnerStateYieldsHmac :
    (∃ (s t : State) (key : List Byte), s.Inv ∧ exec .macKeyCommit s = .next t ∧ key = s.mc.ks) ∧
    (∃ (s t : State) (key : List Byte), s.Inv ∧ exec .macReset s = .next t ∧ s.mc.phase ≠ .unkeyed ∧
      s.mc.kpad = some (normkey key)) ∧
    (∃ cmds : List HostedCommand, (∀ h ∈ cmds, h.cmd.WellFormed ∧ h.cmd ≠ .macKeyCommit ∧ h.cmd ≠ .macReset ∧
      h.cmd ≠ .macFinalize ∧ ∀ n, h.cmd ≠ .macFinalizeData n) ∧
      64 + (cmds.flatMap HostedCommand.macBytes).length ≤ 2 ^ 61 - 1 ∧ (cmds.flatMap HostedCommand.macBytes).length = 67) :=
  ⟨⟨sample final none [], _, _, sample_inv final_inv _ _, rfl, rfl⟩,
    ⟨sample (finalUnit keyWord) none [], _, _, sample_inv (finalUnit_inv keyWord) _ _, rfl, by simp [sample, finalUnit], rfl⟩,
    [⟨Vector.replicate 64 7, 0, 0, .macUpdate 64⟩, ⟨Vector.replicate 64 7, 0, 0, .macUpdate 127⟩,
      ⟨Vector.replicate 64 7, 0, 0, .hashFinal⟩, ⟨Vector.replicate 64 7, 0, 0, .macUpdate 3⟩],
    by simp [Instr.WellFormed, Instr.wf], by decide +kernel, by decide +kernel⟩
theorem witness_MacSplitsAndRepeatsAgree :
    (∃ (s : State) (a b : List Byte) (c : ShaContext), s.Inv ∧ s.mc.phase = .ready ∧ s.mc.ictx = some c ∧
      (a ++ b).length ≤ 64 ∧ c.cnt + (a ++ b).length ≤ 2 ^ 61 - 1) ∧
    (∃ (s : State) (xs ys : List (List Byte)) (c : ShaContext), s.Inv ∧ s.mc.phase = .ready ∧ s.mc.ictx = some c ∧
      (∀ b ∈ xs, b.length ≤ 64) ∧ (∀ b ∈ ys, b.length ≤ 64) ∧ xs.flatten = ys.flatten ∧ xs ≠ ys ∧
      c.cnt + xs.flatten.length ≤ 2 ^ 61 - 1) ∧
    (∃ (s : State) (kp : Vector Byte 64) (xs : List (List Byte)), s.mc.phase = .ready ∧ s.mc.kpad = some kp ∧
      s.mc.ictx = some (absorb shaInit (xorPad kp 0x36)) ∧ (∀ b ∈ xs, b.length ≤ 64) ∧ 64 + xs.flatten.length ≤ 2 ^ 61 - 1) :=
  ⟨⟨sample ready none [], zeros 32, zeros 32, primeInner (normkey []), sample_inv ready_inv _ _, rfl,
      sample_ready_ictx _ _, by decide, by
      rw [primeInner_cnt]; simp⟩,
    ⟨sample ready none [], [zeros 64, zeros 1], [zeros 1, zeros 64], primeInner (normkey []), sample_inv ready_inv _ _,
      rfl, sample_ready_ictx _ _, by decide, by decide, by decide +kernel, by decide +kernel, by rw [primeInner_cnt]; simp⟩,
    ⟨sample ready none [], normkey [], [foxStart, foxEnd], rfl, rfl, sample_ready_primed _ _, by decide, by decide⟩⟩
theorem witness_StagedChunksFormOneKey : ∃ (s : State) (chunks : List (List Byte)), (∀ b ∈ chunks, b.length ≤ 64) ∧
    s.mc.ks.length + chunks.flatten.length ≤ 2 ^ 61 - 1 ∧ chunks.flatten.length = 65 :=
  ⟨State.reset, [zeros 64, zeros 1], by decide, by decide, by decide⟩
theorem witness_NormalisedKeyCases : 64 < (zeros 65).length ∧ (zeros 64).length ≤ 64 := by decide
theorem witness_HashResetStartsNewHash : (0x00000130 : Word).extractLsb' 0 8 = 0x30 ∧
    (0x00000130 : Word) &&& 0xFFFFFF00 ≠ 0 := by decide
theorem witness_HashUpdateAbsorbsData :
    (∃ (n : Nat) (s : State), n ≤ 64 ∧ s.hs.hctx.cnt + n ≤ 2 ^ 61 - 1 ∧ n = 64) ∧ 64 < 65 ∧
    (∃ (n : Nat) (s : State), n ≤ 64 ∧ 2 ^ 61 - 1 < s.hs.hctx.cnt + n) ∧
    (0x00008031 : Word).extractLsb' 0 8 = 0x31 ∧ (0x00008031 : Word) &&& 0xFFFF8000 ≠ 0 :=
  ⟨⟨64, State.reset, by decide, by decide, rfl⟩, by decide,
    ⟨1, { State.reset with hs := { hctx := { shaInit with cnt := 2 ^ 61 - 1 } } }, by decide, by decide⟩, by decide, by decide⟩
theorem witness_HashFinalEmitsDigest : (0x00000132 : Word).extractLsb' 0 8 = 0x32 ∧
    (0x00000132 : Word) &&& 0xFFFFFF00 ≠ 0 := by decide
theorem witness_HashOfChunksIsDigest : (∀ b ∈ [zeros 64, password], b.length ≤ 64) ∧
    [zeros 64, password].flatten.length ≤ 2 ^ 61 - 1 := by decide
theorem witness_ShaFinalPadsToWholeBlocks : shaInit.Wf := shaInit_wf
theorem witness_AbsorbKeepsContext : shaInit.Wf ∧ shaInit.cnt + (zeros 64).length + (zeros 1).length ≤ 2 ^ 61 - 1 :=
  ⟨shaInit_wf, by decide⟩

end Sys2Proof.Tests
end

/-! The invariant gives every command a next state, so the model's faults, which stand for reads of a `⊥` element (00_scope.md
R13), are never answered. -/

namespace Sys2Proof.Machine

/-- A check that ends in a next state when it fires, and otherwise goes on with what answers one, answers a next state. -/
theorem ite_total {p : Prop} [Decidable p] {x y : Result} (hx : ∃ t, x = .next t) (hy : ¬p → ∃ t, y = .next t) :
    ∃ t, (if p then x else y) = .next t := by
  by_cases hp : p
  · rwa [if_pos hp]
  · rw [if_neg hp]; exact hy hp

/-- Under the invariant every command answers a next state: the guards stand before each read of SC.state, MC.kpad and MC.ictx
(00_scope.md R13). -/
theorem exec_total {s : State} (h : s.Inv) (i : Instr) : ∃ t, exec i s = .next t := by
  cases i with
  | scConfig r => exact ite_total ⟨_, rfl⟩ fun _ => ⟨_, rfl⟩
  | scInit k n => exact ite_total ⟨_, rfl⟩ fun _ => ite_total ⟨_, rfl⟩ fun _ => ⟨_, rfl⟩
  | scGetBlock => exact whenKeyed_total h _ fun _ _ => ⟨_, rfl⟩
  | scGetNextBlock => exact whenKeyed_total h _ fun _ _ => ⟨_, rfl⟩
  | scGetKey => exact whenKeyed_total h _ fun _ _ => ⟨_, rfl⟩
  | scGetNonce => exact whenKeyed_total h _ fun _ _ => ⟨_, rfl⟩
  | scReset => exact ⟨_, rfl⟩
  | macKeyAppend n => exact ite_total ⟨_, rfl⟩ fun _ => ite_total ⟨_, rfl⟩ fun _ => ⟨_, rfl⟩
  | macKeyCommit => exact ⟨_, rfl⟩
  | macUpdate n =>
    exact ite_total ⟨_, rfl⟩ fun _ => whenReady_total h _ fun _ _ _ _ => ite_total ⟨_, rfl⟩ fun _ => ⟨_, rfl⟩
  | macFinalize => exact whenReady_total h _ fun c _ hkp _ => ⟨_, finishMac_of_kpad c hkp⟩
  | macFinalizeData n =>
    exact ite_total ⟨_, rfl⟩ fun _ => whenReady_total h _ fun _ _ hkp _ =>
      ite_total ⟨_, rfl⟩ fun _ => ⟨_, finishMac_of_kpad _ hkp⟩
  | macReset =>
    refine ite_total ⟨_, rfl⟩ fun hkeyed => ?_
    obtain ⟨kp, hkp⟩ := kpad_of_keyed h hkeyed
    exact ⟨_, withKeyPad_of_some _ hkp⟩
  | hashReset => exact ⟨_, rfl⟩
  | hashUpdate n => exact ite_total ⟨_, rfl⟩ fun _ => ite_total ⟨_, rfl⟩ fun _ => ⟨_, rfl⟩
  | hashFinal => exact ⟨_, rfl⟩

theorem engineStep_total {s : State} (h : s.Inv) (c : Word) : ∃ t, engineStep c s = .next t := by
  unfold engineStep
  split
  · exact ⟨_, rfl⟩
  · exact exec_total h _

theorem engineTurn_total {s : State} (h : s.Inv) : ∃ t, engineTurn s = .next t := by
  unfold engineTurn
  split
  · exact ⟨_, rfl⟩
  · exact engineStep_total h _

/-- Under the invariant a step answers a next state, or the run has ended (60_exceptions.md R234). -/
theorem step_next_or_noEnabledStep {s : State} (h : s.Inv) :
    (∃ t, step s = .next t) ∨ step s = .refused .noEnabledStep := by
  unfold step
  split
  · split
    · exact .inl (engineTurn_total h)
    · exact .inr rfl
  · exact .inl ⟨_, rfl⟩
  · exact .inl (engineTurn_total (h.outside _ _ _))
  · exact .inl ⟨_, rfl⟩

/-- Settles O10: under the invariant a step answers a next state or the end of the run, and neither is a fault. -/
theorem stepNeverReadsPoison : Obligations.StepNeverReadsPoison := by
  intro s f h
  obtain ⟨t, e⟩ | e := step_next_or_noEnabledStep h <;> simp [e]

end Sys2Proof.Machine

/-! The invariant holds at reset and every step keeps it (10_state.md R22 to R42). A command changes its own unit alone, so each
unit's part is shown for that unit's commands only; the latches and the result window follow from the two ways a command ends. -/

namespace Sys2Proof.Machine

/-! What the guards and the two completions ensure of every next state. -/

/-- Every next state that an answer gives meets `P`. -/
def Ensures (P : State → Prop) (r : Result) : Prop := ∀ t, r = .next t → P t

theorem ensures_succeed {P : State → Prop} {s : State} (h : P s.complete) : Ensures P (succeed s) := by
  rintro _ ⟨⟩; exact h

theorem ensures_raiseError {P : State → Prop} {s : State} {ec : ErrCode} (h : P (s.raiseError ec)) :
    Ensures P (raiseError s ec) := by
  rintro _ ⟨⟩; exact h

theorem ensures_ite {P : State → Prop} {p : Prop} [Decidable p] {x y : Result} (hx : Ensures P x)
    (hy : ¬p → Ensures P y) : Ensures P (if p then x else y) := by
  by_cases hp : p
  · rwa [if_pos hp]
  · rw [if_neg hp]; exact hy hp

theorem ensures_whenKeyed {P : State → Prop} {s : State} {k : Vector Word 16 → Result} (hn : P (s.raiseError .notInit))
    (hk : ∀ st, s.sc.state = some st → Ensures P (k st)) : Ensures P (whenKeyed s k) := by
  intro t e
  obtain ⟨_, rfl⟩ | ⟨_, st, hst, e⟩ := whenKeyed_next e
  · exact hn
  · exact hk st hst t e

theorem ensures_whenReady {P : State → Prop} {s : State} {k : ShaContext → Result} (he : ∀ ec, P (s.raiseError ec))
    (hk : ∀ c, s.mc.phase = .ready → s.mc.ictx = some c → Ensures P (k c)) : Ensures P (whenReady s k) := by
  intro t e
  obtain ⟨_, rfl⟩ | ⟨_, rfl⟩ | ⟨hp, c, hc, e⟩ := whenReady_next e
  · exact he _
  · exact he _
  · exact hk c hp hc t e

theorem ensures_withKeyPad {P : State → Prop} {s : State} {k : Vector Byte 64 → Result}
    (hk : ∀ kp, s.mc.kpad = some kp → Ensures P (k kp)) : Ensures P (withKeyPad s k) := by
  intro t e
  obtain ⟨kp, hkp, e⟩ := withKeyPad_next e
  exact hk kp hkp t e

/-- The two checks of a command that takes LEN bytes of DATA keep the total within the limit (42_sha256.md R190). -/
theorem dataBytes_within {s : State} {n total : Nat} (hn : ¬n > Config.lenMax) (ht : ¬total + n > Config.shaMaxBytes) :
    total + (s.dataBytes n).length ≤ Config.shaMaxBytes := by
  rw [dataBytes_length s n (not_lt.1 hn)]; exact not_lt.1 ht

/-- A command changes the state of its own unit alone (70_reset_and_hazards.md R257). -/
theorem exec_other_units {i : Instr} {s t : State} (e : exec i s = .next t) :
    (i.unit ≠ .sc → t.sc = s.sc) ∧ (i.unit ≠ .mc → t.mc = s.mc) ∧ (i.unit ≠ .hs → t.hs = s.hs) := by
  obtain ⟨ec, _, rfl⟩ | ⟨s', rfl, frame⟩ := exec_cases e
  · exact ⟨fun _ => rfl, fun _ => rfl, fun _ => rfl⟩
  · exact ⟨frame.sc, frame.mc, frame.hs⟩

/-! The stream cipher unit. -/

/-- SC_CONFIG with a count that passes its check and fits the field (40_salsa20.md R112). -/
theorem cipherInv_config {r : Nat} (hr : ¬(r = 0 ∨ r % 2 = 1)) (hw : r < 65536) :
    CipherUnit.Inv { rounds := BitVec.ofNat 16 r, keyed := false, state := none, blockCounter := 0 } where
  rounds_even := by simp [Nat.mod_eq_of_lt hw]; omega
  rounds_pos := by simp [Nat.mod_eq_of_lt hw]; omega
  keyed_iff := rfl
  constants := by simp
  counter_unkeyed _ := rfl

/-- A unit that is given words with the constants, and a key flag to match, whatever its counter (40_salsa20.md R113 to R115). -/
theorem CipherUnit.Inv.withState {u : CipherUnit} (h : u.Inv) {st : Vector Word 16} (hst : HasConstants st) (ctr : BitVec 64) :
    CipherUnit.Inv { u with keyed := true, state := some st, blockCounter := ctr } where
  rounds_even := h.rounds_even
  rounds_pos := h.rounds_pos
  keyed_iff := rfl
  constants _ e := Option.some.inj e ▸ hst
  counter_unkeyed := by simp

/-- A keyed unit whose words take a counter (40_salsa20.md R114, R115). -/
theorem CipherUnit.Inv.withCounter {u : CipherUnit} (h : u.Inv) {st : Vector Word 16} (hst : u.state = some st)
    (word ctr : BitVec 64) :
    CipherUnit.Inv { u with state := some (Machine.withCounter st word), blockCounter := ctr } := by
  have hk : true = u.keyed := by rw [h.keyed_iff, hst]; rfl
  have hinv := h.withState (withCounter_constants st word (h.constants st hst)) ctr
  rwa [hk] at hinv

/-- SC_RESET (40_salsa20.md R118). -/
theorem CipherUnit.Inv.zeroCounter {u : CipherUnit} (h : u.Inv) : CipherUnit.Inv { u with blockCounter := 0 } :=
  ⟨h.rounds_even, h.rounds_pos, h.keyed_iff, h.constants, fun _ => rfl⟩

/-- Every well-formed command keeps what holds of SC. -/
theorem exec_cipher_inv {s : State} (h : s.sc.Inv) {i : Instr} (hw : i.WellFormed) :
    Ensures (fun t => t.sc.Inv) (exec i s) := by
  by_cases hu : i.unit = .sc
  · cases i with
    | scConfig r =>
      exact ensures_ite (ensures_raiseError h) fun hr => ensures_succeed (cipherInv_config hr (of_decide_eq_true hw))
    | scInit k n =>
      exact ensures_ite (ensures_raiseError h) fun _ => ensures_ite (ensures_raiseError h) fun _ =>
        ensures_succeed (h.withState (initstate_constants _ _) 0)
    | scGetBlock => exact ensures_whenKeyed h fun st hst => ensures_succeed (h.withCounter hst _ _)
    | scGetNextBlock => exact ensures_whenKeyed h fun st hst => ensures_succeed (h.withCounter hst _ _)
    | scGetKey => exact ensures_whenKeyed h fun _ _ => ensures_succeed h
    | scGetNonce => exact ensures_whenKeyed h fun _ _ => ensures_succeed h
    | scReset => exact ensures_succeed h.zeroCounter
    | _ => cases hu
  · intro t e
    obtain ⟨hsc, _, _⟩ := exec_other_units e
    rw [hsc hu]; exact h

/-! The MAC unit. -/

/-- More bytes are staged within the limit (41_hmac.md R155). -/
theorem MacUnit.Inv.staged {u : MacUnit} (h : u.Inv) {ks : List Byte} (hks : ks.length ≤ Config.shaMaxBytes) :
    MacUnit.Inv { u with ks := ks } :=
  ⟨h.kpad_iff, h.ictx_iff, h.ictx_wf, h.ictx_primed, hks⟩

/-- A unit in phase Ready whose inner context is the primed one after some message (41_hmac.md R156, R157, R160). -/
theorem macInv_ready {kp : Vector Byte 64} {c : ShaContext} {ks : List Byte} (hwf : c.Wf)
    (hc : ∃ m, c = absorb (primeInner kp) m) (hks : ks.length ≤ Config.shaMaxBytes) :
    MacUnit.Inv { phase := .ready, kpad := some kp, ictx := some c, ks := ks } where
  kpad_iff := by simp
  ictx_iff := by simp
  ictx_wf _ e := Option.some.inj e ▸ hwf
  ictx_primed _ _ ec ekp := Option.some.inj ec ▸ Option.some.inj ekp ▸ hc
  ks_le := hks

/-- The inner context of a keyed unit is consumed (41_hmac.md R158, R159). -/
theorem MacUnit.Inv.finalized {u : MacUnit} (h : u.Inv) {kp : Vector Byte 64} (hkp : u.kpad = some kp) :
    MacUnit.Inv { u with ictx := none, phase := .finalized } where
  kpad_iff := by simp [hkp]
  ictx_iff := by simp
  ictx_wf := by simp
  ictx_primed := by simp
  ks_le := h.ks_le

/-- A keyed unit is given an inner context that is the primed one after some message (41_hmac.md R157, R160). -/
theorem MacUnit.Inv.withContext {u : MacUnit} (h : u.Inv) {kp : Vector Byte 64} {c : ShaContext} (hkp : u.kpad = some kp)
    (hwf : c.Wf) (hc : ∃ m, c = absorb (primeInner kp) m) : MacUnit.Inv { u with ictx := some c, phase := .ready } := by
  have hinv := macInv_ready hwf hc h.ks_le
  rwa [← hkp] at hinv

/-- A message part within the limit is absorbed in phase Ready (41_hmac.md R157). -/
theorem MacUnit.Inv.absorbed {u : MacUnit} (h : u.Inv) {c : ShaContext} {b : List Byte} (hp : u.phase = .ready)
    (hc : u.ictx = some c) (hn : c.cnt + b.length ≤ Config.shaMaxBytes) :
    MacUnit.Inv { u with ictx := some (absorb c b) } := by
  obtain ⟨kp, hkp⟩ := Option.ne_none_iff_exists'.1 fun hb => by simpa [hp] using h.kpad_iff.1 hb
  obtain ⟨m, hm⟩ := h.ictx_primed c kp hc hkp
  have hinv := h.withContext hkp (absorb_wf c b (h.ictx_wf c hc) hn) ⟨m ++ b, by rw [absorb_append, ← hm]⟩
  rwa [← hp] at hinv

theorem finishMac_mac_inv {s : State} (h : s.mc.Inv) (c : ShaContext) : Ensures (fun t => t.mc.Inv) (finishMac s c) :=
  ensures_withKeyPad fun _ hkp => ensures_succeed (h.finalized hkp)

/-- Every command keeps what holds of MC. -/
theorem exec_mac_inv {s : State} (h : s.mc.Inv) (i : Instr) : Ensures (fun t => t.mc.Inv) (exec i s) := by
  by_cases hu : i.unit = .mc
  · cases i with
    | macKeyAppend n =>
      refine ensures_ite (ensures_raiseError h) fun hn => ensures_ite (ensures_raiseError h) fun hks => ?_
      refine ensures_succeed (h.staged ?_)
      rw [List.length_append]; exact dataBytes_within hn hks
    | macKeyCommit => exact ensures_succeed (macInv_ready (primeInner_wf _) ⟨[], rfl⟩ (Nat.zero_le _))
    | macUpdate n =>
      exact ensures_ite (ensures_raiseError h) fun hn => ensures_whenReady (fun _ => h) fun c hp hc =>
        ensures_ite (ensures_raiseError h) fun hcnt => ensures_succeed (h.absorbed hp hc (dataBytes_within hn hcnt))
    | macFinalize => exact ensures_whenReady (fun _ => h) fun c _ _ => finishMac_mac_inv h c
    | macFinalizeData n =>
      exact ensures_ite (ensures_raiseError h) fun _ => ensures_whenReady (fun _ => h) fun _ _ _ =>
        ensures_ite (ensures_raiseError h) fun _ => finishMac_mac_inv h _
    | macReset =>
      exact ensures_ite (ensures_raiseError h) fun _ => ensures_withKeyPad fun kp hkp =>
        ensures_succeed (h.withContext hkp (primeInner_wf kp) ⟨[], rfl⟩)
    | _ => cases hu
  · intro t e
    obtain ⟨_, hmc, _⟩ := exec_other_units e
    rw [hmc hu]; exact h

/-! The hash unit. -/

/-- What holds of HS: the two clauses that `State.Inv` has of it. -/
structure HashUnit.Inv (u : HashUnit) : Prop where
  wf : u.hctx.Wf
  absorbed : ∃ m, u.hctx = absorb shaInit m

theorem hashInv_init : HashUnit.Inv { hctx := shaInit } := ⟨shaInit_wf, [], rfl⟩

/-- A message part within the limit is absorbed (42_sha256.md R192). -/
theorem HashUnit.Inv.absorb {u : HashUnit} (h : u.Inv) {b : List Byte} (hn : u.hctx.cnt + b.length ≤ Config.shaMaxBytes) :
    HashUnit.Inv { hctx := Machine.absorb u.hctx b } := by
  obtain ⟨m, hm⟩ := h.absorbed
  exact ⟨absorb_wf _ _ h.wf hn, m ++ b, by rw [absorb_append, ← hm]⟩

/-- Every command keeps what holds of HS. -/
theorem exec_hash_inv {s : State} (h : s.hs.Inv) (i : Instr) : Ensures (fun t => t.hs.Inv) (exec i s) := by
  by_cases hu : i.unit = .hs
  · cases i with
    | hashReset => exact ensures_succeed hashInv_init
    | hashUpdate n =>
      exact ensures_ite (ensures_raiseError h) fun hn => ensures_ite (ensures_raiseError h) fun hcnt =>
        ensures_succeed (h.absorb (dataBytes_within hn hcnt))
    | hashFinal => exact ensures_succeed hashInv_init
    | _ => cases hu
  · intro t e
    obtain ⟨_, _, hhs⟩ := exec_other_units e
    rw [hhs hu]; exact h

/-! The latches and the result window. -/

theorem complete_latchInv (s : State) : s.complete.LatchInv := by constructor <;> simp [State.busy]

theorem raiseError_latchInv (s : State) {ec : ErrCode} (h : ec ≠ .ok) : (s.raiseError ec).LatchInv := by
  constructor <;> simp [State.busy, h]

theorem issue_latchInv (s : State) (c : Word) : (s.issue c).LatchInv := by constructor <;> simp

theorem writeReg_latchInv {s : State} (h : s.LatchInv) (r : Reg) (v : Word) : (s.writeReg r v).LatchInv := by
  cases r with
  | cmd => exact issue_latchInv s v
  | _ => exact ⟨h.not_both, h.busy_clear, h.err_iff⟩

theorem hostAccess_latchInv {s : State} (h : s.LatchInv) (a : Access) : (s.hostAccess a).LatchInv := by
  by_cases hf : s.accessFaults a = .empty
  · rw [State.hostAccess, hf]
    cases a with
    | read off w => exact ⟨h.not_both, h.busy_clear, h.err_iff⟩
    | write off w v => exact writeReg_latchInv h _ v
  · rw [hostAccess_of_faults hf]
    exact ⟨h.not_both, h.busy_clear, h.err_iff⟩

/-- OUT and OUT_LEN alone decide the window's part. -/
theorem State.OutInv.congr {s t : State} (h : s.OutInv) (ho : t.out = s.out) (hl : t.outLen = s.outLen) : t.OutInv :=
  ⟨hl ▸ h.len_le, hl ▸ ho ▸ h.zero_after⟩

/-- A result of n bytes leaves zeros in OUT from n on (10_state.md R42). -/
theorem outInv_of_result {t : State} {r : List Byte} {n : Nat} (hr : r.length = n) (hn : n ≤ 64) (ho : t.out = block64 r)
    (hl : t.outLen = BitVec.ofNat 7 n) : t.OutInv := by
  have hlen : t.outLen.toNat = n := by rw [hl, BitVec.toNat_ofNat]; omega
  refine ⟨hlen ▸ hn, fun i hi _ => ?_⟩
  rw [ho, block64_toList r (hr ▸ hn), List.getD_append_right _ _ _ _ (by omega)]
  simp [zeros]

theorem exec_outInv {i : Instr} {s t : State} (h : s.OutInv) (e : exec i s = .next t) : t.OutInv := by
  obtain ⟨ec, _, rfl⟩ | ⟨s', rfl, frame⟩ := exec_cases e
  · exact h.congr rfl rfl
  · cases ho : i.outBytes with
    | none => exact h.congr (frame.noResult ho).1 (frame.noResult ho).2
    | some n =>
      obtain ⟨r, hr, hn, hout, hlen⟩ := frame.result n ho
      exact outInv_of_result hr hn hout hlen

theorem exec_latchInv {i : Instr} {s t : State} (e : exec i s = .next t) : t.LatchInv := by
  obtain ⟨ec, hec, rfl⟩ | ⟨s', rfl, _⟩ := exec_cases e
  · exact raiseError_latchInv s hec
  · exact complete_latchInv s'

/-! The whole state. -/

theorem State.Inv.hashUnit {s : State} (h : s.Inv) : s.hs.Inv := ⟨h.hash, h.hash_absorbed⟩

/-- Every well-formed command keeps the invariant. -/
theorem exec_inv {i : Instr} {s t : State} (h : s.Inv) (hw : i.WellFormed) (e : exec i s = .next t) : t.Inv :=
  have hash : t.hs.Inv := exec_hash_inv h.hashUnit i t e
  ⟨exec_cipher_inv h.cipher hw t e, exec_mac_inv h.mac i t e, hash.wf, hash.absorbed, exec_latchInv e,
    exec_outInv h.window e⟩

/-- An error completion keeps the invariant: it changes only STATUS (60_exceptions.md R223). -/
theorem raiseError_inv {s : State} (h : s.Inv) {ec : ErrCode} (hec : ec ≠ .ok) : (s.raiseError ec).Inv :=
  ⟨h.cipher, h.mac, h.hash, h.hash_absorbed, raiseError_latchInv s hec, h.window.congr rfl rfl⟩

/-- The engine's turn answers a next state in three ways: nothing is pending, the word is illegal, or its command runs. -/
theorem engineTurn_cases {s t : State} (e : engineTurn s = .next t) :
    t = s ∨ t = s.raiseError .illegalCmd ∨ ∃ i : Instr, i.WellFormed ∧ exec i s = .next t := by
  unfold engineTurn at e
  split at e
  · cases e; exact .inl rfl
  · unfold engineStep at e
    split at e
    · cases e; exact .inr (.inl rfl)
    · exact .inr (.inr ⟨_, decode_wellFormed ‹_›, e⟩)

theorem engineTurn_inv {s t : State} (h : s.Inv) (e : engineTurn s = .next t) : t.Inv := by
  obtain rfl | rfl | ⟨i, hw, e⟩ := engineTurn_cases e
  · exact h
  · exact raiseError_inv h (by decide)
  · exact exec_inv h hw e

theorem hostAccess_inv {s : State} (h : s.Inv) (a : Access) : (s.hostAccess a).Inv := by
  obtain ⟨hsc, hmc, hhs, hout, hlen, _⟩ := hostAccess_frame s a
  exact ⟨hsc ▸ h.cipher, hmc ▸ h.mac, hhs ▸ h.hash, hhs ▸ h.hash_absorbed, hostAccess_latchInv h.latch a,
    h.window.congr hout hlen⟩

/-- Settles O8: each unit is at its reset value, without key and with the empty hash context, and OUT is zero. -/
theorem resetMeetsInvariant : Obligations.ResetMeetsInvariant where
  cipher := cipherInv_config (r := Config.roundsReset) (by decide) (by decide)
  mac := ⟨by decide, by decide, nofun, nofun, by decide⟩
  hash := shaInit_wf
  hash_absorbed := ⟨[], rfl⟩
  latch := ⟨by decide, by decide, by decide⟩
  window := outInv_of_result (r := []) rfl (by decide) (by decide) rfl

theorem resetEvent_inv (s : State) : s.resetEvent.Inv := State.Inv.outside resetMeetsInvariant s.turns s.fault none

/-- Settles O9: a host access, the engine's turn and a reset event each keep the invariant, and it does not speak of the turns. -/
theorem stepKeepsInvariant : Obligations.StepKeepsInvariant := by
  intro s t h e
  obtain ⟨_, e⟩ | ⟨a, rest, _, rfl⟩ | ⟨rest, _, e⟩ | ⟨rest, _, rfl⟩ := step_cases e
  · exact engineTurn_inv h e
  · exact hostAccess_inv (h.outside rest _ _) a
  · exact engineTurn_inv (h.outside rest _ _) e
  · exact resetEvent_inv _

end Sys2Proof.Machine

/-! FAULT, the result window and the STATUS word (10_state.md R35, R42, R44). -/

namespace Sys2Proof.Machine

/-- No command changes FAULT. -/
theorem exec_fault {i : Instr} {s t : State} (e : exec i s = .next t) : t.fault = s.fault := by
  obtain ⟨ec, _, rfl⟩ | ⟨s', rfl, frame⟩ := exec_cases e
  · rfl
  · exact frame.fault

theorem engineTurn_fault {s t : State} (e : engineTurn s = .next t) : t.fault = s.fault := by
  obtain rfl | rfl | ⟨i, _, e⟩ := engineTurn_cases e
  · rfl
  · rfl
  · exact exec_fault e

/-- A step adds the faults of at most one host access to FAULT. -/
theorem step_fault {s t : State} (e : step s = .next t) : ∃ f, t.fault = s.fault.union f := by
  obtain ⟨_, e⟩ | ⟨a, rest, _, rfl⟩ | ⟨rest, _, e⟩ | ⟨rest, _, rfl⟩ := step_cases e
  · exact ⟨.empty, (engineTurn_fault e).trans (FaultSet.union_empty _).symm⟩
  · exact ⟨_, hostAccess_fault _ a⟩
  · exact ⟨.empty, (engineTurn_fault e).trans (FaultSet.union_empty _).symm⟩
  · exact ⟨.empty, (FaultSet.union_empty _).symm⟩

/-- Settles O26: FAULT after a step is a union with FAULT before it. -/
theorem faultSetOnlyGrows : Obligations.FaultSetOnlyGrows := by
  refine ⟨rfl, fun s t e => ?_⟩
  obtain ⟨f, hf⟩ := step_fault e
  rw [hf]
  exact ⟨fun h => by simp [FaultSet.union, h], fun h => by simp [FaultSet.union, h]⟩

/-- The window after a completing command: a result and zeros if the command has one and succeeds, otherwise as before
(10_state.md R42). -/
theorem exec_window {i : Instr} {s t : State} (e : exec i s = .next t) :
    (∀ n, i.outBytes = some n → t.err = false →
      ∃ r : List Byte, r.length = n ∧ t.out.toList = r ++ List.replicate (64 - n) 0 ∧ t.outLen.toNat = n) ∧
    (i.outBytes = none ∨ t.err = true → t.out = s.out ∧ t.outLen = s.outLen) := by
  obtain ⟨ec, _, rfl⟩ | ⟨s', rfl, frame⟩ := exec_cases e
  · exact ⟨fun _ _ herr => by simp at herr, fun _ => ⟨rfl, rfl⟩⟩
  · refine ⟨fun n hn _ => ?_, fun h => frame.noResult (h.resolve_right (by simp))⟩
    obtain ⟨r, rfl, hle, hout, hlen⟩ := frame.result n hn
    refine ⟨r, rfl, ?_, ?_⟩
    · rw [State.complete_out, hout, block64_toList r hle, zeros]
    · rw [State.complete_outLen, hlen, BitVec.toNat_ofNat]; omega

/-- Settles O16: the window after a command is that of its frame, and a write to OUT writes no register. -/
theorem outputWindowRule : Obligations.OutputWindowRule :=
  ⟨fun _ _ _ e => exec_window e,
    fun _ i _ hp => writesAs_of_reg (.out i) hp (by omega) (by omega) (ofOffset_out i) fun _ => rfl,
    by decide, rfl⟩

/-- The upper bits of STATUS: the error code in 15:8, and OUT_LEN from bit 16 on, zero where it has no bit (10_state.md R35). -/
theorem statusWord_getLsbD_of_ge (s : State) {i : Nat} (h : 8 ≤ i) : s.statusWord.getLsbD i =
    if i < 16 then s.errCode.value.getLsbD (i - 8) else s.outLen.getLsbD (i - 16) := by
  rw [statusWord_getLsbD]
  iterate 8 rw [if_neg (by omega)]

theorem statusWord_errCode (s : State) : s.statusWord.extractLsb' 8 8 = s.errCode.value := by
  ext i hi
  rw [BitVec.getElem_extractLsb', statusWord_getLsbD_of_ge s (by omega), if_pos (by omega), Nat.add_sub_cancel_left,
    BitVec.getLsbD_eq_getElem]

theorem statusWord_outLen (s : State) : s.statusWord.extractLsb' 16 7 = s.outLen := by
  ext i hi
  rw [BitVec.getElem_extractLsb', statusWord_getLsbD_of_ge s (by omega), if_neg (by omega), Nat.add_sub_cancel_left,
    BitVec.getLsbD_eq_getElem]

theorem statusWord_reserved (s : State) : s.statusWord.extractLsb' 23 9 = 0 := by
  ext i hi
  rw [BitVec.getElem_extractLsb', statusWord_getLsbD_of_ge s (by omega), if_neg (by omega),
    BitVec.getLsbD_of_ge _ _ (by omega)]
  simp

/-- Settles O19: the low byte bit by bit, the fields above it as they are sliced out, and the write as one to a read-only
register. -/
theorem statusWordFields : Obligations.StatusWordFields := by
  refine ⟨fun s => ?_, fun s v hp => writesAs_of_reg .status hp rfl (by decide) rfl fun _ => rfl, by decide⟩
  refine ⟨?_, statusWord_getLsbD s 1, statusWord_getLsbD s 2, statusWord_getLsbD s 3, statusWord_getLsbD s 4, ?_, ?_,
    statusWord_getLsbD s 7, statusWord_errCode s, statusWord_outLen s, statusWord_reserved s⟩
  · rw [statusWord_getLsbD]; exact Option.isSome_iff_ne_none
  · rw [statusWord_getLsbD]; exact bne_iff_ne
  · rw [statusWord_getLsbD]; exact beq_iff_eq

end Sys2Proof.Machine

/-! The register window: illegal accesses, reads, writes, and a DATA word read back (20_memory.md R52 to R56, R63). -/

namespace Sys2Proof.Machine

/-- A word read little-endian is the "or" of its shifted bytes (20_memory.md R63). -/
theorem append_bytes_eq_or_shifts (a b c d : Byte) : (a ++ b ++ c ++ d : BitVec 32) =
    d.zeroExtend 32 ||| (c.zeroExtend 32 <<< 8) ||| (b.zeroExtend 32 <<< 16) ||| (a.zeroExtend 32 <<< 24) := by
  ext i hi
  simp
  grind

theorem le32_of_lt {s : List Byte} {i : Nat} (h : i + 3 < s.length) :
    le32 s i = s[i + 3] ++ s[i + 2] ++ s[i + 1] ++ s[i] := by
  rw [le32, List.getD_eq_getElem s 0 h, List.getD_eq_getElem s 0 (show i + 2 < s.length by omega),
    List.getD_eq_getElem s 0 (show i + 1 < s.length by omega), List.getD_eq_getElem s 0 (show i < s.length by omega)]

theorem le32bytes_append (a b c d : Byte) : le32bytes (a ++ b ++ c ++ d) = [d, c, b, a] := by
  obtain ⟨hd, hc, hb, ha⟩ := extract_append_bytes a b c d
  rw [le32bytes, hd, hc, hb, ha]

theorem le32bytes_toNat (w : Word) : (le32bytes w).map BitVec.toNat =
    [w.toNat % 256, w.toNat / 256 % 256, w.toNat / 65536 % 256, w.toNat / 16777216 % 256] := by
  simp [le32bytes, BitVec.extractLsb'_toNat, Nat.shiftRight_eq_div_pow]

/-- Settles O42: four bytes read are their concatenation, whose slices are the bytes again. -/
theorem littleEndianConversions : Obligations.LittleEndianConversions := by
  refine ⟨fun s i h => ?_, fun w => ⟨le32bytes_toNat w, le32_le32bytes w⟩⟩
  rw [le32_of_lt h]
  exact ⟨append_bytes_eq_or_shifts _ _ _ _, le32bytes_append _ _ _ _⟩

theorem Access.legal_iff (a : Access) : a.legal = true ↔ a.width = 4 ∧ a.off.toNat % 4 = 0 := by
  simp [Access.legal]

/-- F_BUS_ACCESS is in FAULT after an access if it was before or the access is illegal (20_memory.md R52). -/
theorem hostAccess_busAccess (s : State) (a : Access) :
    (s.hostAccess a).fault.busAccess = (s.fault.busAccess || !a.legal) := by
  rw [hostAccess_fault]; rfl

/-- With nothing pending no access adds F_HOST_HAZARD (70_reset_and_hazards.md R254). -/
theorem hostAccess_hostHazard_of_idle {s : State} (hp : s.pending = none) (a : Access) :
    (s.hostAccess a).fault.hostHazard = s.fault.hostHazard := by
  rw [hostAccess_fault]
  simp [FaultSet.union, State.accessFaults, State.busy, hp]

/-- An illegal access changes FAULT alone (20_memory.md R52). -/
theorem hostAccess_of_illegal {s : State} {a : Access} (ha : ¬a.legal = true) :
    s.hostAccess a = s.addFaults (s.accessFaults a) :=
  hostAccess_of_faults fun h => ha (by simpa [State.accessFaults, FaultSet.empty] using congrArg FaultSet.busAccess h)

/-- Settles O20: an illegal access only adds faults, and F_BUS_ACCESS is added by no other. -/
theorem illegalAccessFaults : Obligations.IllegalAccessFaults := by
  intro s a rest h
  rw [step_host h]
  refine ⟨fun hill => ?_, fun hw ho => ?_⟩
  · have ha : ¬a.legal = true := by rw [Access.legal_iff]; omega
    refine ⟨_, rfl, ?_, fun hp => hostAccess_hostHazard_of_idle (s := { s with turns := rest }) hp a, ?_⟩
    · simp [hostAccess_busAccess, ha]
    · rw [hostAccess_of_illegal ha]; rfl
  · refine ⟨_, rfl, ?_⟩
    simp [hostAccess_busAccess, (Access.legal_iff a).2 ⟨hw, ho⟩]

/-- Settles O23: each offset is that of its register, and the words of DATA and OUT are four bytes each. -/
theorem readsReturnRegisters : Obligations.ReadsReturnRegisters := by
  intro s hp
  exact ⟨readsAs_of_reg .cmd hp rfl (by decide) rfl rfl,
    readsAs_of_reg .status hp rfl (by decide) rfl rfl,
    readsAs_of_reg .rounds hp rfl (by decide) rfl rfl,
    readsAs_of_reg .ctrLo hp rfl (by decide) rfl rfl,
    readsAs_of_reg .ctrHi hp rfl (by decide) rfl rfl,
    readsAs_of_reg .blkctrLo hp rfl (by decide) rfl rfl,
    readsAs_of_reg .blkctrHi hp rfl (by decide) rfl rfl,
    fun i => readsAs_of_reg (.data i) hp (by omega) (by omega) (ofOffset_data i) (le32_window s.data i),
    fun i => readsAs_of_reg (.out i) hp (by omega) (by omega) (ofOffset_out i) (le32_window s.out i),
    readsAs_of_reg .reserved hp rfl (by decide) rfl rfl,
    fun i => readsAs_of_reg .reserved hp (by omega) (by omega) (ofOffset_reserved_low i) rfl,
    fun i => readsAs_of_reg .reserved hp (by omega) (by omega) (ofOffset_reserved_high i) rfl⟩

/-- A permitted write to DATA word i stores its four bytes there (20_memory.md R55, R56). -/
theorem writesAs_data {s : State} (hp : s.pending = none) (i : Fin 16) (v : Word) :
    WritesAs s (0x40 + 4 * i.val) v (s.setDataWord i v) :=
  writesAs_of_reg (.data i) hp (by omega) (by omega) (ofOffset_data i) fun _ => rfl

/-- A permitted read of DATA word i returns that word (20_memory.md R53). -/
theorem readsAs_data {s : State} (hp : s.pending = none) (i : Fin 16) :
    ReadsAs s (0x40 + 4 * i.val) (s.readReg (.data i)) :=
  readsAs_of_reg (.data i) hp (by omega) (by omega) (ofOffset_data i) rfl

/-- Settles O24: each offset is that of its register, of which CMD, CTR and DATA alone take a write. -/
theorem writesFollowRegisterMap : Obligations.WritesFollowRegisterMap := by
  intro s v hp
  exact ⟨writesAs_of_reg .cmd hp rfl (by decide) rfl fun _ => rfl,
    writesAs_of_reg .ctrLo hp rfl (by decide) rfl fun _ => rfl,
    writesAs_of_reg .ctrHi hp rfl (by decide) rfl fun _ => rfl,
    fun i => ⟨_, writesAs_data hp i v, setDataWord_data s i v⟩,
    writesAs_of_reg .status hp rfl (by decide) rfl fun _ => rfl,
    writesAs_of_reg .rounds hp rfl (by decide) rfl fun _ => rfl,
    writesAs_of_reg .blkctrLo hp rfl (by decide) rfl fun _ => rfl,
    writesAs_of_reg .blkctrHi hp rfl (by decide) rfl fun _ => rfl,
    fun i => writesAs_of_reg (.out i) hp (by omega) (by omega) (ofOffset_out i) fun _ => rfl,
    writesAs_of_reg .reserved hp rfl (by decide) rfl fun _ => rfl,
    fun i => writesAs_of_reg .reserved hp (by omega) (by omega) (ofOffset_reserved_low i) fun _ => rfl,
    fun i => writesAs_of_reg .reserved hp (by omega) (by omega) (ofOffset_reserved_high i) fun _ => rfl⟩

/-- The byte at offset k of word j of DATA after a write to word i. -/
theorem setDataWord_byte (s : State) (i j : Fin 16) (v : Word) (k : Nat) (hk : k < 4) :
    (s.setDataWord i v).data[4 * j.val + k] =
      if j = i then v.extractLsb' (8 * k) 8 else s.data[4 * j.val + k] := by
  have hdiv : (4 * j.val + k) / 4 = j.val := by omega
  have hmod : (4 * j.val + k) % 4 = k := by omega
  have h := setDataWord_data s i v ⟨4 * j.val + k, by omega⟩
  simpa only [Fin.getElem_fin, hdiv, hmod, Fin.val_inj] using h

/-- A read of DATA word j after a write of v to word i (20_memory.md R56). -/
theorem readReg_setDataWord (s : State) (i j : Fin 16) (v : Word) :
    (s.setDataWord i v).readReg (.data j) = if j = i then v else s.readReg (.data j) := by
  have byte := setDataWord_byte s i j v
  have lowest : (s.setDataWord i v).data[4 * j.val] = if j = i then v.extractLsb' 0 8 else s.data[4 * j.val] :=
    byte 0 (by decide)
  rw [State.readReg, State.readReg, le32_window, le32_window, byte 3 (by decide), byte 2 (by decide), byte 1 (by decide),
    lowest]
  by_cases hji : j = i
  · simp only [if_pos hji]; exact append_extract_bytes v
  · simp only [if_neg hji]

/-- Settles O25: the write answers the state with the word set, of which the read returns word j. -/
theorem dataWordReadsBack : Obligations.DataWordReadsBack := by
  intro s i j v rest hp h
  have hwrite := writesAs_data hp i v (.host (.read (BitVec.ofNat 8 (0x40 + 4 * j.val)) 4) :: rest)
  rw [← h] at hwrite
  have hread := readsAs_data (s := s.setDataWord i v) hp j rest
  exact ⟨_, (run_succ hwrite).trans ((run_one _).trans hread), congrArg some (readReg_setDataWord s i j v), rfl⟩

end Sys2Proof.Machine

/-! The encoding (30_encoding.md R82 to R89): a word is the concatenation of its fields, a legal word has zeros in its reserved
fields, and the decoder reads the word by match and mask. -/

namespace Sys2Proof

/-! The encoder and the decoder are inverse to each other. -/

/-- Settles O1: the round trip of each constructor. -/
theorem decodeInvertsEncode : Obligations.DecodeInvertsEncode := by
  intro i
  cases i with
  | scConfig r => exact Laws.RoundTrip.scConfig r
  | scInit k n => exact Laws.RoundTrip.scInit k n
  | scGetBlock => exact Laws.RoundTrip.scGetBlock
  | scGetNextBlock => exact Laws.RoundTrip.scGetNextBlock
  | scGetKey => exact Laws.RoundTrip.scGetKey
  | scGetNonce => exact Laws.RoundTrip.scGetNonce
  | scReset => exact Laws.RoundTrip.scReset
  | macKeyAppend n => exact Laws.RoundTrip.macKeyAppend n
  | macKeyCommit => exact Laws.RoundTrip.macKeyCommit
  | macUpdate n => exact Laws.RoundTrip.macUpdate n
  | macFinalize => exact Laws.RoundTrip.macFinalize
  | macFinalizeData n => exact Laws.RoundTrip.macFinalizeData n
  | macReset => exact Laws.RoundTrip.macReset
  | hashReset => exact Laws.RoundTrip.hashReset
  | hashUpdate n => exact Laws.RoundTrip.hashUpdate n
  | hashFinal => exact Laws.RoundTrip.hashFinal

/-- A field that a mask covers is zero in a word that has no bit of the mask. -/
theorem field_eq_zero_of_and {c mask : Word} (h : c &&& mask = 0) {lo n : Nat}
    (hm : mask.extractLsb' lo n = BitVec.allOnes n) : c.extractLsb' lo n = 0#n := by
  have hfield := congrArg (BitVec.extractLsb' lo n) h
  rw [BitVec.extractLsb'_and, hm, BitVec.and_allOnes] at hfield
  rw [hfield]; ext i hi; simp

/-! An operand read from its field and put back is the field (30_encoding.md R86). -/

theorem ofNat_lenField (c : Word) : BitVec.ofNat 7 (lenField c) = c.extractLsb' 8 7 :=
  (BitVec.ofNat_toNat 7 _).trans (BitVec.setWidth_eq _)

theorem ofNat_nlenField (c : Word) : BitVec.ofNat 7 (nlenField c) = c.extractLsb' 16 7 :=
  (BitVec.ofNat_toNat 7 _).trans (BitVec.setWidth_eq _)

theorem ofNat_roundsField (c : Word) : BitVec.ofNat 16 (roundsField c) = c.extractLsb' 16 16 :=
  (BitVec.ofNat_toNat 16 _).trans (BitVec.setWidth_eq _)

/-- Two neighbouring fields are one field. -/
theorem append_neighbours (c : Word) (lo m n : Nat) :
    c.extractLsb' (lo + n) m ++ c.extractLsb' lo n = c.extractLsb' lo (m + n) :=
  BitVec.extractLsb'_append_extractLsb'_eq_extractLsb' rfl

/-- OPCODE and the bits above it are the whole word. -/
theorem append_opcodeField (c : Word) : c.extractLsb' 8 24 ++ opcodeField c = c :=
  (append_neighbours c 0 24 8).trans BitVec.extractLsb'_eq_self

/-- The word of a format N row from a word with its opcode and no reserved bit (30_encoding.md R82). -/
theorem encodeN_of_reserved {o : Op} {c : Word} (hc : o.code = opcodeField c) (hr : c &&& Format.n.reserved = 0) :
    encodeN o = c := by
  have hzero : c.extractLsb' 8 24 = 0#24 := field_eq_zero_of_and hr (by decide)
  rw [encodeN, hc, ← hzero, append_opcodeField]

/-- The word of a format L row from a word with its opcode and no reserved bit (30_encoding.md R83). -/
theorem encodeL_of_reserved {o : Op} {c : Word} (hc : o.code = opcodeField c) (hr : c &&& Format.l.reserved = 0) :
    encodeL o (lenField c) = c := by
  have hzero : c.extractLsb' 15 17 = 0#17 := field_eq_zero_of_and hr (by decide)
  rw [encodeL, hc, ofNat_lenField, ← hzero, append_neighbours c 8 17 7]
  exact append_opcodeField c

/-- The word of a format K row from a word with its opcode and no reserved bit (30_encoding.md R84). -/
theorem encodeK_of_reserved {o : Op} {c : Word} (hc : o.code = opcodeField c) (hr : c &&& Format.k.reserved = 0) :
    encodeK o (lenField c) (nlenField c) = c := by
  have hhigh : c.extractLsb' 23 9 = 0#9 := field_eq_zero_of_and hr (by decide)
  have hbit : c.extractLsb' 15 1 = 0#1 := field_eq_zero_of_and hr (by decide)
  rw [encodeK, hc, ofNat_lenField, ofNat_nlenField, ← hhigh, ← hbit, append_neighbours c 16 9 7,
    append_neighbours c 15 16 1, append_neighbours c 8 17 7]
  exact append_opcodeField c

/-- The word of a format R row from a word with its opcode and no reserved bit (30_encoding.md R85). -/
theorem encodeR_of_reserved {o : Op} {c : Word} (hc : o.code = opcodeField c) (hr : c &&& Format.r.reserved = 0) :
    encodeR o (roundsField c) = c := by
  have hzero : c.extractLsb' 8 8 = 0#8 := field_eq_zero_of_and hr (by decide)
  rw [encodeR, hc, ofNat_roundsField, ← hzero, append_neighbours c 8 16 8]
  exact append_opcodeField c

/-- The command that a row reads from a word of it has that word. -/
theorem Op.encode_assemble {o : Op} {c : Word} (hc : o.code = opcodeField c) (hr : c &&& o.format.reserved = 0) :
    encode (o.assemble c) = c := by
  cases o with
  | scConfig => exact encodeR_of_reserved hc hr
  | scInit => exact encodeK_of_reserved hc hr
  | macKeyAppend | macUpdate | macFinalizeData | hashUpdate => exact encodeL_of_reserved hc hr
  | _ => exact encodeN_of_reserved hc hr

/-- Settles O2: a decoded word has its row's opcode and no reserved bit, so it is the word of the command read from it. -/
theorem encodeInvertsDecode : Obligations.EncodeInvertsDecode := by
  intro c i h
  obtain ⟨o, hc, hr, rfl⟩ := decode_eq_ok_iff.1 h
  exact ⟨o.assemble_wellFormed c, Op.encode_assemble hc hr⟩

/-! Match and mask. -/

/-- Two words are equal when they agree in OPCODE and in the bits above it. -/
theorem word_eq_iff {c d : Word} : c = d ↔ c.extractLsb' 8 24 = d.extractLsb' 8 24 ∧ opcodeField c = opcodeField d := by
  refine ⟨fun h => h ▸ ⟨rfl, rfl⟩, fun ⟨hhigh, hop⟩ => ?_⟩
  rw [← append_opcodeField c, hhigh, hop, append_opcodeField]

theorem word_eq_zero_iff {c : Word} : c = 0 ↔ c.extractLsb' 8 24 = 0 ∧ opcodeField c = 0 := word_eq_iff

theorem opcodeField_and (c d : Word) : opcodeField (c &&& d) = opcodeField c &&& opcodeField d := BitVec.extractLsb'_and

/-- No format reserves a bit of OPCODE (30_encoding.md R81). -/
theorem Format.opcodeField_reserved (f : Format) : opcodeField f.reserved = 0#8 := by cases f <;> decide

/-- A mask covers OPCODE, and above it the bits that the row's format reserves (30_encoding.md R82 to R87). -/
theorem Op.mask_fields (o : Op) :
    o.mask.extractLsb' 8 24 = o.format.reserved.extractLsb' 8 24 ∧ opcodeField o.mask = BitVec.allOnes 8 := by
  rw [Op.mask_eq]; cases o.format <;> decide

/-- A match is OPCODE with zeros above it (30_encoding.md R87). -/
theorem Op.pattern_fields (o : Op) : o.pattern.extractLsb' 8 24 = 0 ∧ opcodeField o.pattern = o.code := by
  rw [Op.pattern_eq]; exact ⟨BitVec.extractLsb'_append_eq_left, opcodeField_append _ _⟩

/-- A word matches a row exactly when it has the row's opcode and no bit that the row's format reserves. -/
theorem Op.matches_iff (o : Op) (c : Word) :
    c &&& o.mask = o.pattern ↔ o.code = opcodeField c ∧ c &&& o.format.reserved = 0 := by
  obtain ⟨hmask, hop⟩ := o.mask_fields
  obtain ⟨hpattern, hcode⟩ := o.pattern_fields
  rw [word_eq_iff, word_eq_zero_iff, opcodeField_and, opcodeField_and, hop, hcode, hpattern, BitVec.extractLsb'_and,
    BitVec.extractLsb'_and, hmask, Format.opcodeField_reserved, BitVec.and_allOnes, BitVec.and_zero]
  constructor
  · exact fun ⟨hhigh, h⟩ => ⟨h.symm, hhigh, rfl⟩
  · exact fun ⟨h, hhigh, _⟩ => ⟨hhigh, h.symm⟩

/-- Settles O3: the rows are read off, and the word of a row is the one that decodes to a command of it. -/
theorem decodeFollowsOpcodeMap : Obligations.DecodeFollowsOpcodeMap := by
  refine ⟨rfl, fun c o => ?_⟩
  rw [o.matches_iff]
  constructor
  · rintro ⟨i, hi, rfl⟩
    obtain ⟨o, hc, hr, rfl⟩ := decode_eq_ok_iff.1 hi
    rw [o.assemble_op]; exact ⟨hc, hr⟩
  · exact fun ⟨hc, hr⟩ => ⟨_, decode_eq_ok_iff.2 ⟨o, hc, hr, rfl⟩, o.assemble_op c⟩

/-! Illegal words. -/

/-- A byte is an opcode when it is in the opcode column (30_encoding.md R87). -/
theorem Op.exists_code_iff (b : Byte) : (∃ o : Op, o.code = b) ↔ b.toNat ∈ Op.all.map fun o => o.code.toNat := by
  simp only [List.mem_map, Op.mem_all, true_and, BitVec.toNat_inj]

theorem opcodeField_toNat (c : Word) : (opcodeField c).toNat = c.toNat % 256 := by
  simp [opcodeField, BitVec.extractLsb'_toNat]

/-- The opcodes that are not in the map (30_encoding.md R88 (a)). -/
theorem unassigned_iff (c : Word) : (¬∃ o : Op, o.code = opcodeField c) ↔
    (c.toNat % 256 ≤ 0x0F ∨ (0x17 ≤ c.toNat % 256 ∧ c.toNat % 256 ≤ 0x1F) ∨
      (0x26 ≤ c.toNat % 256 ∧ c.toNat % 256 ≤ 0x2F) ∨ 0x33 ≤ c.toNat % 256) := by
  rw [Op.exists_code_iff, opcodeField_toNat]
  simp only [Op.all, Op.code, List.map_cons, List.map_nil, List.mem_cons, List.not_mem_nil, or_false,
    BitVec.reduceToNat]
  omega

/-- A word is refused when it has no row, or has a row and a bit that the row's format reserves (30_encoding.md R88). -/
theorem decode_error_iff (c : Word) : (∃ r, decode c = .error r) ↔
    (¬∃ o : Op, o.code = opcodeField c) ∨ ∃ o : Op, o.code = opcodeField c ∧ c &&& o.format.reserved ≠ 0 := by
  unfold decode
  cases h : Op.ofCode (opcodeField c) with
  | none =>
    have hno : ¬∃ o : Op, o.code = opcodeField c := fun ⟨o, ho⟩ => by rw [← ho, Op.ofCode_code] at h; cases h
    exact iff_of_true ⟨_, rfl⟩ (.inl hno)
  | some o =>
    have ho := Op.code_of_ofCode h
    by_cases hr : c &&& o.format.reserved = 0
    · simp only [hr, if_true]
      refine iff_of_false nofun (not_or.2 ⟨not_not.2 ⟨o, ho⟩, fun ⟨o', ho', hr'⟩ => ?_⟩)
      rw [← ho', Op.ofCode_code] at h
      cases h; exact hr' hr
    · exact iff_of_true ⟨_, if_neg hr⟩ (.inr ⟨o, ho, hr⟩)

/-! The encoder in numbers. -/

/-- A field above another counts by the width of the lower one. -/
theorem toNat_append_eq_add {m n : Nat} (x : BitVec m) (y : BitVec n) : (x ++ y).toNat = x.toNat * 2 ^ n + y.toNat := by
  rw [BitVec.toNat_append, ← Nat.shiftLeft_add_eq_or_of_lt y.isLt, Nat.shiftLeft_eq]

/-- OPCODE counts by 1 and what stands above it by 256 (30_encoding.md R81). -/
theorem toNat_append_code (x : BitVec 24) (b : Byte) : (x ++ b : Word).toNat = x.toNat * 256 + b.toNat :=
  toNat_append_eq_add x b

theorem encodeN_toNat (o : Op) : (encodeN o).toNat = o.code.toNat := by
  rw [encodeN, toNat_append_code]; simp

theorem encodeL_toNat (o : Op) {len : Nat} (h : len < 128) : (encodeL o len).toNat = len * 256 + o.code.toNat := by
  rw [encodeL, toNat_append_code, toNat_append_eq_add, BitVec.toNat_ofNat, BitVec.toNat_ofNat]
  omega

theorem encodeK_toNat (o : Op) {klen nlen : Nat} (hk : klen < 128) (hn : nlen < 128) :
    (encodeK o klen nlen).toNat = nlen * 65536 + klen * 256 + o.code.toNat := by
  rw [encodeK, toNat_append_code, toNat_append_eq_add, toNat_append_eq_add, toNat_append_eq_add]
  simp only [BitVec.toNat_ofNat]
  omega

theorem encodeR_toNat (o : Op) {rounds : Nat} (h : rounds < 65536) :
    (encodeR o rounds).toNat = rounds * 65536 + o.code.toNat := by
  rw [encodeR, toNat_append_code, toNat_append_eq_add, BitVec.toNat_ofNat, BitVec.toNat_ofNat]
  omega

/-- A command without operands has format N (30_encoding.md R87, R89). -/
theorem encode_of_operands_nil {i : Instr} (h : i.operands = []) : encode i = encodeN i.op := by
  cases i with
  | scConfig | scInit | macKeyAppend | macUpdate | macFinalizeData | hashUpdate => cases h
  | _ => rfl

/-- Settles O6: the sum of the fields, format by format. -/
theorem encodingIsArithmetic : Obligations.EncodingIsArithmetic :=
  ⟨fun _ h => encodeR_toNat .scConfig h,
    fun _ hk _ hn => encodeK_toNat .scInit hk hn,
    fun _ h => ⟨encodeL_toNat .macKeyAppend h, encodeL_toNat .macUpdate h, encodeL_toNat .macFinalizeData h,
      encodeL_toNat .hashUpdate h⟩,
    fun _ h => encode_of_operands_nil h ▸ encodeN_toNat _⟩

/-- Settles O4: each word is decoded. -/
theorem sampleWordsDecode : Obligations.SampleWordsDecode := ⟨rfl, rfl, rfl, rfl, rfl, rfl⟩

end Sys2Proof

namespace Sys2Proof.Machine

theorem engineStep_of_ok {c : Word} {i : Instr} (h : decode c = .ok i) (s : State) : engineStep c s = exec i s := by
  rw [engineStep, h]

theorem engineStep_of_error {c : Word} {r : Reject} (h : decode c = .error r) (s : State) :
    engineStep c s = .next (s.raiseError .illegalCmd) := by
  rw [engineStep, h]; rfl

/-- Settles O5: a word without a row or with a reserved bit is refused, and a refused word ends in an error. -/
theorem illegalWordsRaiseIllegalCmd : Obligations.IllegalWordsRaiseIllegalCmd :=
  fun c => ⟨decode_error_iff c, unassigned_iff c, fun _ s h => engineStep_of_error h s⟩

end Sys2Proof.Machine

/-! A command reports the first error that applies (60_exceptions.md R225), and `DO c` (30_encoding.md R90) runs c. -/

namespace Sys2Proof.Machine

/-! The error a command must report. -/

/-- The causes of each command's errors as its own rule checks them, one after another (40_salsa20.md R112 to R118, 41_hmac.md
R155 to R160, 42_sha256.md R191 to R193). -/
def errorChain (s : State) : Instr → ErrCode
  | .scConfig r => if r = 0 ∨ r % 2 = 1 then .rounds else .ok
  | .scInit k n => if k ≠ 32 then .keyLen else if n ≠ 8 then .nonceLen else .ok
  | .scGetBlock | .scGetNextBlock | .scGetKey | .scGetNonce => if s.sc.keyed = false then .notInit else .ok
  | .macKeyAppend n => if n > 64 then .len else if s.mc.ks.length + n > 2 ^ 61 - 1 then .msgTooLong else .ok
  | .macUpdate n | .macFinalizeData n =>
    if n > 64 then .len else if s.mc.phase = .unkeyed then .notInit else if s.mc.phase = .finalized then .misuse
    else if s.mc.ictx.any (fun c => decide (c.cnt + n > 2 ^ 61 - 1)) then .msgTooLong else .ok
  | .macFinalize => if s.mc.phase = .unkeyed then .notInit else if s.mc.phase = .finalized then .misuse else .ok
  | .macReset => if s.mc.phase = .unkeyed then .notInit else .ok
  | .hashUpdate n => if n > 64 then .len else if s.hs.hctx.cnt + n > 2 ^ 61 - 1 then .msgTooLong else .ok
  | .scReset | .macKeyCommit | .hashReset | .hashFinal => .ok

theorem getD_find?_cons {α : Type} (p : α → Bool) (a d : α) (l : List α) :
    ((a :: l).find? p).getD d = if p a then a else (l.find? p).getD d := by
  cases h : p a <;> simp [h]

/-- The order of R225 is the order of each command's own checks: no cause before them applies to it (60_exceptions.md R224,
R225). -/
theorem firstError_eq_errorChain (i : Instr) (s : State) : firstError i s = errorChain s i := by
  simp only [firstError, ErrCode.order, getD_find?_cons, List.find?_nil, Option.getD_none]
  cases i <;> simp [ErrCode.applies, Instr.lenOperand, Instr.needsCipherKey, Instr.needsMacKey, Instr.needsMacReady, errorChain]

/-! What the completions and the guards report. -/

/-- Every next state that an answer gives has this ERRCODE. -/
def Reports (ec : ErrCode) : Result → Prop := Ensures fun t => t.errCode = ec

theorem reports_succeed (s : State) : Reports .ok (succeed s) := ensures_succeed rfl

theorem reports_raiseError (s : State) (ec : ErrCode) : Reports ec (raiseError s ec) := ensures_raiseError rfl

theorem reports_ite {p : Prop} [Decidable p] {x y : Result} {a b : ErrCode} (hx : Reports a x) (hy : Reports b y) :
    Reports (if p then a else b) (if p then x else y) := by
  by_cases hp : p
  · rwa [if_pos hp, if_pos hp]
  · rwa [if_neg hp, if_neg hp]

theorem reports_whenKeyed {s : State} {k : Vector Word 16 → Result} {ec : ErrCode} (hk : ∀ st, Reports ec (k st)) :
    Reports (if s.sc.keyed = false then .notInit else ec) (whenKeyed s k) := by
  intro t e
  obtain ⟨hkeyed, rfl⟩ | ⟨hkeyed, st, _, e⟩ := whenKeyed_next e
  · rw [if_pos hkeyed]; rfl
  · rw [if_neg (by simp [hkeyed])]; exact hk st t e

theorem reports_whenReady {s : State} {k : ShaContext → Result} {ec : ErrCode}
    (hk : ∀ c, s.mc.ictx = some c → Reports ec (k c)) :
    Reports (if s.mc.phase = .unkeyed then .notInit else if s.mc.phase = .finalized then .misuse else ec)
      (whenReady s k) := by
  intro t e
  obtain ⟨hp, rfl⟩ | ⟨hp, rfl⟩ | ⟨hp, c, hc, e⟩ := whenReady_next e
  · rw [if_pos hp]; rfl
  · rw [if_neg (by simp [hp]), if_pos hp]; rfl
  · rw [if_neg (by simp [hp]), if_neg (by simp [hp])]; exact hk c hc t e

theorem reports_withKeyPad {s : State} {k : Vector Byte 64 → Result} {ec : ErrCode} (hk : ∀ kp, Reports ec (k kp)) :
    Reports ec (withKeyPad s k) := ensures_withKeyPad fun kp _ => hk kp

theorem reports_finishMac (s : State) (c : ShaContext) : Reports .ok (finishMac s c) :=
  reports_withKeyPad fun _ => reports_succeed _

/-- The guards of a command that takes n bytes of a message before it goes on with the inner context (41_hmac.md R157, R159). -/
theorem reports_takeMessage {s : State} {n : Nat} {k : ShaContext → Result} (hk : ∀ c, Reports .ok (k c)) :
    Reports (errorChain s (.macUpdate n)) (if n > Config.lenMax then raiseError s .len else whenReady s fun c =>
      if c.cnt + n > Config.shaMaxBytes then raiseError s .msgTooLong else k c) := by
  refine reports_ite (reports_raiseError s _) (reports_whenReady fun c hc => ?_)
  simp only [hc, Option.any_some, decide_eq_true_eq]
  exact reports_ite (reports_raiseError s _) (hk c)

/-- A command reports the first error that applies, or OK (60_exceptions.md R225). -/
theorem exec_reports_firstError (i : Instr) (s : State) : Reports (firstError i s) (exec i s) := by
  rw [firstError_eq_errorChain]
  cases i with
  | scConfig r => exact reports_ite (reports_raiseError s _) (reports_succeed _)
  | scGetBlock | scGetNextBlock | scGetKey | scGetNonce => exact reports_whenKeyed fun _ => reports_succeed _
  | scInit | macKeyAppend | hashUpdate =>
    exact reports_ite (reports_raiseError s _) (reports_ite (reports_raiseError s _) (reports_succeed _))
  | macUpdate n => exact reports_takeMessage fun _ => reports_succeed _
  | macFinalize => exact reports_whenReady fun c _ => reports_finishMac s c
  | macFinalizeData n => exact reports_takeMessage fun _ => reports_finishMac s _
  | macReset => exact reports_ite (reports_raiseError s _) (reports_withKeyPad fun _ => reports_succeed _)
  | scReset | macKeyCommit | hashReset | hashFinal => exact reports_succeed _

/-! The turns of `DO c`. -/

/-- A command ends with nothing pending (60_exceptions.md R221). -/
theorem exec_pending {i : Instr} {s t : State} (e : exec i s = .next t) : t.pending = none := by
  obtain ⟨_, _, rfl⟩ | ⟨_, rfl, _⟩ := exec_cases e <;> rfl

/-- A command runs the same once its word is issued, whatever the turns and the value last read. -/
theorem exec_issue {i : Instr} {s t : State} (e : exec i s = .next t) (c : Word) (turns : List Turn) (rdata : Option Word) :
    exec i { s.issue c with turns := turns, rdata := rdata } = .next { t with turns := turns, rdata := rdata } :=
  (exec_outside e false false .ok (some c) s.fault turns rdata).trans (by rw [← exec_fault e])

/-- At the host's move a permitted write has its effect. -/
theorem step_of_writesAs {s t : State} {off : Nat} {v : Word} {rest : List Turn} (hw : WritesAs s off v t)
    (h : s.turns = .host (.write (BitVec.ofNat 8 off) 4 v) :: rest) : step s = .next { t with turns := rest } := by
  have e := hw rest
  rwa [← h] at e

/-- At the host's move a STATUS read changes the value last read alone (70_reset_and_hazards.md R254). -/
theorem step_statusRead {s : State} {rest : List Turn} (h : s.turns = .host (.read 0x04 4) :: rest) :
    step s = .next { s with turns := rest, rdata := some s.statusWord } :=
  (step_host h).trans (congrArg _ (hostAccess_statusRead _))

/-- Any number of STATUS reads change the value last read alone. -/
theorem run_statusReads {rest : List Turn} (k n : Nat) {s : State}
    (h : s.turns = List.replicate n (.host (.read 0x04 4)) ++ rest) :
    ∃ r, core.run (n + k) s = core.run k { s with turns := rest, rdata := r } := by
  induction n generalizing s with
  | zero =>
    have hs : rest = s.turns := h.symm
    exact ⟨s.rdata, by rw [Nat.zero_add, hs]⟩
  | succ n ih =>
    obtain ⟨r, hr⟩ := ih (s := { s with turns := _, rdata := some s.statusWord }) rfl
    exact ⟨r, by rw [Nat.add_right_comm, run_succ (step_statusRead h)]; exact hr⟩

/-- WAIT for a pending command word: its engine step, and then a read of the STATUS it leaves (30_encoding.md R90). -/
theorem run_wait {s u : State} {c : Word} {n : Nat} {rest : List Turn} (hp : s.pending = some c)
    (h : s.turns = HostSequence.wait n ++ rest)
    (hu : ∀ r, engineStep c { s with turns := .host (.read 0x04 4) :: rest, rdata := r } =
      .next { u with turns := .host (.read 0x04 4) :: rest, rdata := r }) :
    core.run (n + 2) s = .next { u with turns := rest, rdata := some u.statusWord } := by
  obtain ⟨r, hr⟩ := run_statusReads (rest := .engine :: .host (.read 0x04 4) :: rest) 2 n
    (s := s) (by rw [h, HostSequence.wait, List.append_assoc]; rfl)
  have hengine := (step_engine (s := { s with turns := .engine :: .host (.read 0x04 4) :: rest, rdata := r }) hp
    (.inl rfl)).trans (hu r)
  rw [hr, run_succ hengine, run_one, step_statusRead rfl]
  rfl

/-- Settles O28: the write to CMD issues the command's word, and WAIT runs it. -/
theorem doCommandRunsToCompletion : Obligations.DoCommandRunsToCompletion := by
  intro s i lat rest hinv hp hw h
  obtain ⟨u, hu⟩ := exec_total hinv i
  refine ⟨u, hu, ?_, exec_pending hu, exec_reports_firstError i s u hu, exec_fault hu⟩
  have hissue : WritesAs s 0x00 (encode i) (s.issue (encode i)) :=
    writesAs_of_reg .cmd hp rfl (by decide) rfl fun _ => rfl
  rw [run_succ (step_of_writesAs hissue h)]
  exact run_wait rfl rfl fun r => (engineStep_of_ok (decodeInvertsEncode i hw) _).trans (exec_issue hu _ _ r)

end Sys2Proof.Machine

/-! The encoding lines of a command rule (30_encoding.md R81 to R88), one lemma each for every row of the opcode map. -/

namespace Sys2Proof.Machine

/-- A word of a row is refused for each bit that the row's format reserves (30_encoding.md R88). -/
theorem refusesReserved_row (o : Op) : RefusesReserved o.code o.format.reserved := by
  intro c s hc hr
  obtain ⟨r, h⟩ := (decode_error_iff c).2 (.inr ⟨o, hc.symm, hr⟩)
  exact engineStep_of_error h s

/-- A word with a row's match under its mask is the row's command with the operands read from the word (30_encoding.md R86,
R87). -/
theorem decodesAs_row (o : Op) : DecodesAs o.pattern o.mask o.assemble := by
  intro c hc
  obtain ⟨hcode, hr⟩ := (o.matches_iff c).1 hc
  exact decode_eq_ok_iff.2 ⟨o, hcode, hr, rfl⟩

end Sys2Proof.Machine

/-! The Salsa20 core and its input block (40_salsa20.md R103 to R111, R119, R120). -/

namespace Sys2Proof.Machine

/-- Settles O40: the double round keeps the zero array, so its iterates do, and the input added is zero. -/
theorem zeroArrayIsFixedByCore : Obligations.ZeroArrayIsFixedByCore := by
  intro r
  rw [salsa20core, Function.iterate_fixed doubleround_zero]
  exact Vector.ext fun i hi => by simp

/-- A word after a quarter-round depends on the words of the group and on its own word before. -/
theorem quarterAt_getElem_congr {i0 i1 i2 i3 : Fin 16} {x y : Vector Word 16}
    (hgroup : ∀ i ∈ [i0, i1, i2, i3], x[i] = y[i]) {j : Nat} (hj : j < 16) (h : x[j] = y[j]) :
    (quarterAt i0 i1 i2 i3 x)[j] = (quarterAt i0 i1 i2 i3 y)[j] := by
  rw [quarterAt_getElem, quarterAt_getElem, hgroup i0 (by simp), hgroup i1 (by simp), hgroup i2 (by simp),
    hgroup i3 (by simp), h]

/-- A quarter-round changes no word outside its group, the group taken as a list (40_salsa20.md R103). -/
theorem quarterAt_getElem_of_notMem {i0 i1 i2 i3 : Fin 16} (x : Vector Word 16) {j : Fin 16}
    (h : j ∉ [i0, i1, i2, i3]) : (quarterAt i0 i1 i2 i3 x)[j] = x[j] := by
  have hne (i) (hi : i ∈ [i0, i1, i2, i3]) : i.val ≠ j.val := Fin.val_ne_of_ne (ne_of_mem_of_not_mem hi h)
  exact quarterAt_getElem_of_ne i0 i1 i2 i3 x j j.isLt (hne i0 (by simp)) (hne i1 (by simp)) (hne i2 (by simp))
    (hne i3 (by simp))

/-- On a word outside the group b, quarter-rounds on disjoint groups a and b act in either order as the one on a alone. -/
theorem quarterAt_comm_getElem {a0 a1 a2 a3 b0 b1 b2 b3 : Fin 16} (x : Vector Word 16)
    (hab : ∀ a ∈ [a0, a1, a2, a3], a ∉ [b0, b1, b2, b3]) {j : Fin 16} (hj : j ∉ [b0, b1, b2, b3]) :
    (quarterAt a0 a1 a2 a3 (quarterAt b0 b1 b2 b3 x))[j] = (quarterAt b0 b1 b2 b3 (quarterAt a0 a1 a2 a3 x))[j] := by
  rw [quarterAt_getElem_of_notMem (quarterAt a0 a1 a2 a3 x) hj]
  exact quarterAt_getElem_congr (fun a ha => quarterAt_getElem_of_notMem x (hab a ha)) j.isLt
    (quarterAt_getElem_of_notMem x hj)

/-- Settles O41: every index is outside one of the two groups. -/
theorem disjointQuarterRoundsCommute : Obligations.DisjointQuarterRoundsCommute := by
  intro a0 a1 a2 a3 b0 b1 b2 b3 x h
  have hab (a) (ha : a ∈ [a0, a1, a2, a3]) : a ∉ [b0, b1, b2, b3] := fun hb => h a ha a hb rfl
  have hba (b) (hb : b ∈ [b0, b1, b2, b3]) : b ∉ [a0, a1, a2, a3] := fun ha => h b ha b hb rfl
  refine Vector.ext fun j hj => ?_
  by_cases hb : ⟨j, hj⟩ ∈ [b0, b1, b2, b3]
  · exact (quarterAt_comm_getElem x hba (hba _ hb)).symm
  · exact quarterAt_comm_getElem x hab hb

/-- CTR_LO is word 8 and CTR_HI word 9 (40_salsa20.md R114). -/
theorem withCounter_append (st : Vector Word 16) (hi lo : Word) : withCounter st (hi ++ lo) = (st.set 8 lo).set 9 hi := by
  rw [withCounter, BitVec.extractLsb'_append_eq_left, BitVec.extractLsb'_append_eq_right]

/-- Words with the constants are, but for the counter, the input block of the key and the nonce they hold (10_state.md R25,
40_salsa20.md R109). -/
theorem initstate_of_constants {st : Vector Word 16} (h : HasConstants st) :
    initstate (stateKey st) (stateNonce st) = withCounter st 0 := by
  obtain ⟨h0, h5, h10, h15⟩ := h
  refine Vector.ext fun i hi => ?_
  rw [withCounter_getElem]
  interval_cases i
  · exact h0.symm
  iterate 4 exact append_extract_bytes _
  · exact h5.symm
  iterate 2 exact append_extract_bytes _
  iterate 2 rfl
  · exact h10.symm
  iterate 4 exact append_extract_bytes _
  · exact h15.symm

/-- Words that agree but for the counter give the same block. -/
theorem salsablock_congr {st st' : Vector Word 16} (h : withCounter st 0 = withCounter st' 0) (ctr : BitVec 64) (r : Nat) :
    salsablock st ctr r = salsablock st' ctr r := by
  rw [← salsablock_withCounter st 0, h, salsablock_withCounter]

theorem stateKey_congr {st st' : Vector Word 16} (h : withCounter st 0 = withCounter st' 0) :
    stateKey st = stateKey st' := by
  rw [← stateKey_withCounter st 0, h, stateKey_withCounter]

theorem stateNonce_congr {st st' : Vector Word 16} (h : withCounter st 0 = withCounter st' 0) :
    stateNonce st = stateNonce st' := by
  rw [← stateNonce_withCounter st 0, h, stateNonce_withCounter]

end Sys2Proof.Machine

/-! The commands of the stream cipher unit (40_salsa20.md R112 to R118). -/

namespace Sys2Proof.Machine

/-! A command that needs a key, on a keyed unit. -/

/-- OUT after a result of at most 64 bytes (10_state.md R42). -/
theorem putResult_out_toList (s : State) {r : List Byte} (h : r.length ≤ 64) :
    (s.putResult r).out.toList = r ++ List.replicate (64 - r.length) 0 := block64_toList r h

/-- A block fills OUT (40_salsa20.md R111). -/
theorem block64_salsablock (st : Vector Word 16) (ctr : BitVec 64) (r : Nat) :
    (block64 (salsablock st ctr r)).toList = salsablock st ctr r := by
  rw [block64_toList _ (by simp)]; simp [zeros]

/-- The state a block command answers, its latches aside, field by field (40_salsa20.md R114, R115). -/
theorem emitBlock_eq (s : State) (st : Vector Word 16) (ctr : BitVec 64) : emitBlock s st ctr = { s with
    sc := { s.sc with state := some (withCounter st ctr) }, out := block64 (salsablock st ctr s.sc.rounds.toNat),
    outLen := 64 } := by
  simp [emitBlock, State.putResult]

section KeyedUnit

variable {s : State} {st : Vector Word 16} (hk : s.sc.keyed = true) (hst : s.sc.state = some st)
include hk hst

theorem exec_scGetBlock_of_state : exec .scGetBlock s = .next (emitBlock s st s.ctr).complete :=
  whenKeyed_of_state _ hk hst

theorem exec_scGetNextBlock_of_state : exec .scGetNextBlock s = .next (State.complete
    { emitBlock s st s.sc.blockCounter with
      sc := { s.sc with state := some (withCounter st s.sc.blockCounter), blockCounter := s.sc.blockCounter + 1 } }) :=
  whenKeyed_of_state _ hk hst

theorem exec_scGetKey_of_state : exec .scGetKey s = .next (s.putResult (stateKey st)).complete :=
  whenKeyed_of_state _ hk hst

theorem exec_scGetNonce_of_state : exec .scGetNonce s = .next (s.putResult (stateNonce st)).complete :=
  whenKeyed_of_state _ hk hst

end KeyedUnit

/-! The statements about one command. -/

/-- Settles O30: the check on the count decides between the two answers. -/
theorem scConfigSetsRoundsAndDropsKey : Obligations.ScConfigSetsRoundsAndDropsKey :=
  ⟨fun _ _ _ h0 h1 => if_neg (by omega), fun _ _ _ h => if_pos h, refusesReserved_row .scConfig, decodesAs_row .scConfig⟩

/-- With key and nonce in DATA, SC_INIT reads them from there (40_salsa20.md R113). -/
theorem dataSlice_of_key_nonce {s : State} {key nonce : List Byte} (hk : key.length = 32)
    (h : s.data.toList.take 40 = key ++ nonce) : s.dataSlice 0 32 = key ∧ s.dataSlice 32 8 = nonce := by
  constructor
  · rw [State.dataSlice, slice_zero, ← List.take_left' (l₂ := nonce) hk, ← h, List.take_take]; rfl
  · rw [State.dataSlice, slice, ← List.drop_left' (l₂ := nonce) hk, ← h, List.drop_take]

theorem exec_scInit (s : State) : exec (.scInit 32 8) s = .next (State.complete { s with
    sc := { s.sc with state := some (initstate (s.dataSlice 0 32) (s.dataSlice 32 8)), blockCounter := 0, keyed := true } }) :=
  rfl

/-- Settles O31: the two checks decide among the three answers, and key and nonce are the two parts of DATA. -/
theorem scInitLoadsKeyAndNonce : Obligations.ScInitLoadsKeyAndNonce := by
  refine ⟨fun s key nonce hk _ h => ?_, fun _ _ _ _ _ h => if_pos h, fun _ _ _ h => if_pos h,
    refusesReserved_row .scInit, decodesAs_row .scInit⟩
  obtain ⟨hkey, hnonce⟩ := dataSlice_of_key_nonce hk h
  rw [exec_scInit, hkey, hnonce]
  rfl

/-- Settles O32: CTR is CTR_HI above CTR_LO, and the block fills OUT. -/
theorem scGetBlockEmitsBlockAtCtr : Obligations.ScGetBlockEmitsBlockAtCtr := by
  refine ⟨fun s st hk hst => ?_, fun _ h => whenKeyed_of_not _ h, refusesReserved_row .scGetBlock,
    decodesAs_row .scGetBlock⟩
  rw [← withCounter_append, exec_scGetBlock_of_state hk hst, emitBlock_eq]
  exact ⟨_, block64_salsablock st s.ctr _, rfl⟩

/-- Settles O33: the block at SC.blockCounter fills OUT, and addition on 64 bits is modulo 2^64. -/
theorem scGetNextBlockEmitsAndCounts : Obligations.ScGetNextBlockEmitsAndCounts := by
  refine ⟨fun s st hk hst => ⟨_, withCounter st s.sc.blockCounter, rfl, block64_salsablock st _ _, ?_⟩,
    fun _ h => whenKeyed_of_not _ h, refusesReserved_row .scGetNextBlock, decodesAs_row .scGetNextBlock⟩
  have hcount : BitVec.ofNat 64 (s.sc.blockCounter.toNat + 1) = s.sc.blockCounter + 1 := by
    rw [BitVec.ofNat_add, BitVec.ofNat_toNat, BitVec.setWidth_eq]; rfl
  rw [hcount, exec_scGetNextBlock_of_state hk hst, emitBlock_eq]
  rfl

/-- Settles O34: the 32 key bytes and 32 zeros fill OUT. -/
theorem scGetKeyReadsKeyWords : Obligations.ScGetKeyReadsKeyWords :=
  ⟨fun s st hk hst => ⟨_, putResult_out_toList s (r := stateKey st) (by simp), exec_scGetKey_of_state hk hst⟩,
    fun _ h => whenKeyed_of_not _ h, refusesReserved_row .scGetKey, decodesAs_row .scGetKey⟩

/-- Settles O35: the 8 nonce bytes and 56 zeros fill OUT. -/
theorem scGetNonceReadsNonceWords : Obligations.ScGetNonceReadsNonceWords :=
  ⟨fun s st hk hst => ⟨_, putResult_out_toList s (r := stateNonce st) (by simp), exec_scGetNonce_of_state hk hst⟩,
    fun _ h => whenKeyed_of_not _ h, refusesReserved_row .scGetNonce, decodesAs_row .scGetNonce⟩

/-- Settles O36: the command checks nothing. -/
theorem scResetZeroesCounter : Obligations.ScResetZeroesCounter :=
  ⟨fun _ => rfl, refusesReserved_row .scReset, decodesAs_row .scReset⟩

/-- The block at CTR is that of the input block built from the key and the nonce held (40_salsa20.md R111, R120). -/
theorem exec_scGetBlock_out {s t : State} {st : Vector Word 16} (h : s.Inv) (hst : s.sc.state = some st)
    (e : exec .scGetBlock s = .next t) :
    t.out = block64 (salsablock (initstate (stateKey st) (stateNonce st)) (s.ctrHi ++ s.ctrLo) s.sc.rounds.toNat) := by
  have hk : s.sc.keyed = true := by rw [h.cipher.keyed_iff, hst]; rfl
  rw [exec_scGetBlock_of_state hk hst] at e
  cases e
  rw [initstate_of_constants (h.cipher.constants st hst), salsablock_withCounter]
  rfl

/-- Settles O38: either OUT is the block of the same key, nonce, counter and round count. -/
theorem blockDependsOnlyOnKeyNonceRoundsCtr : Obligations.BlockDependsOnlyOnKeyNonceRoundsCtr := by
  intro s s' t t' st st' h h' hst hst' hkey hnonce hrounds hlo hhi e e'
  rw [exec_scGetBlock_out h hst e, exec_scGetBlock_out h' hst' e', hkey, hnonce, hrounds, hlo, hhi]
  exact ⟨rfl, block64_salsablock _ _ _⟩

end Sys2Proof.Machine

/-! Runs of commands over which the stream cipher unit keeps its key (40_salsa20.md R119, R121). -/

namespace Sys2Proof.Machine

/-! What a command other than SC_INIT and SC_CONFIG keeps. -/

/-- The command is neither SC_INIT nor SC_CONFIG, which alone replace or drop the key (40_salsa20.md R119). -/
def KeepsKey (i : Instr) : Prop := (∀ k n, i ≠ .scInit k n) ∧ ∀ r, i ≠ .scConfig r

/-- Such a command of SC has no operand. -/
theorem KeepsKey.wellFormed_of_sc {i : Instr} (h : KeepsKey i) (hu : i.unit = .sc) : i.WellFormed := by
  cases i with
  | scConfig r => exact absurd rfl (h.2 r)
  | scInit k n => exact absurd rfl (h.1 k n)
  | scGetBlock | scGetNextBlock | scGetKey | scGetNonce | scReset => rfl
  | _ => cases hu

/-- Such a command keeps the invariant whatever its operands are. -/
theorem exec_inv_of_keepsKey {i : Instr} {s t : State} (hi : KeepsKey i) (h : s.Inv) (e : exec i s = .next t) : t.Inv := by
  have cipher : t.sc.Inv := by
    by_cases hu : i.unit = .sc
    · exact exec_cipher_inv h.cipher (hi.wellFormed_of_sc hu) t e
    · rw [(exec_other_units e).1 hu]; exact h.cipher
  have hash : t.hs.Inv := exec_hash_inv h.hashUnit i t e
  exact ⟨cipher, exec_mac_inv h.mac i t e, hash.wf, hash.absorbed, exec_latchInv e, exec_outInv h.window e⟩

/-- The unit is keyed with the words of `base`, its counter words aside, and has this round count. -/
structure CipherUnit.KeyedBy (u : CipherUnit) (base : Vector Word 16) (rounds : BitVec 16) : Prop where
  keyed : u.keyed = true
  state : ∃ st, u.state = some st ∧ withCounter st 0 = withCounter base 0
  rounds_eq : u.rounds = rounds

/-- Counters change neither the key, the nonce nor the round count. -/
theorem CipherUnit.KeyedBy.withCounter {u : CipherUnit} {base st : Vector Word 16} {rounds : BitVec 16}
    (h : u.KeyedBy base rounds) (hst : u.state = some st) (word ctr : BitVec 64) :
    CipherUnit.KeyedBy { u with state := some (Machine.withCounter st word), blockCounter := ctr } base rounds := by
  obtain ⟨st', hst', hbase⟩ := h.state
  obtain rfl : st' = st := Option.some.inj (hst'.symm.trans hst)
  exact ⟨h.keyed, ⟨_, rfl, (withCounter_withCounter st' word 0).trans hbase⟩, h.rounds_eq⟩

/-- Every command but SC_INIT and SC_CONFIG keeps key, nonce and round count (40_salsa20.md R119). -/
theorem exec_keyedBy {s : State} {base : Vector Word 16} {rounds : BitVec 16} (h : s.sc.KeyedBy base rounds) {i : Instr}
    (hi : KeepsKey i) : Ensures (fun t => t.sc.KeyedBy base rounds) (exec i s) := by
  by_cases hu : i.unit = .sc
  · cases i with
    | scConfig r => exact absurd rfl (hi.2 r)
    | scInit k n => exact absurd rfl (hi.1 k n)
    | scGetBlock => exact ensures_whenKeyed h fun _ hst => ensures_succeed (h.withCounter hst _ s.sc.blockCounter)
    | scGetNextBlock => exact ensures_whenKeyed h fun _ hst => ensures_succeed (h.withCounter hst _ _)
    | scGetKey | scGetNonce => exact ensures_whenKeyed h fun _ _ => ensures_succeed h
    | scReset => exact ensures_succeed ⟨h.keyed, h.state, h.rounds_eq⟩
    | _ => cases hu
  · intro t e
    rw [(exec_other_units e).1 hu]; exact h

/-- On a keyed unit SC_GET_NEXT_BLOCK alone moves the counter, SC_INIT, SC_CONFIG and SC_RESET aside (40_salsa20.md R115,
R121). -/
theorem exec_blockCounter {s : State} (hk : s.sc.keyed = true) {i : Instr} (hi : KeepsKey i) (hr : i ≠ .scReset) :
    Ensures (fun t => t.sc.blockCounter = s.sc.blockCounter + if i = .scGetNextBlock then 1 else 0) (exec i s) := by
  by_cases hu : i.unit = .sc
  · cases i with
    | scConfig r => exact absurd rfl (hi.2 r)
    | scInit k n => exact absurd rfl (hi.1 k n)
    | scReset => exact absurd rfl hr
    | scGetNextBlock =>
      intro t e
      obtain ⟨hn, _⟩ | ⟨_, st, _, e⟩ := whenKeyed_next e
      · rw [hk] at hn; cases hn
      · cases e; rfl
    | scGetBlock | scGetKey | scGetNonce =>
      exact ensures_whenKeyed (BitVec.add_zero _).symm fun _ _ => ensures_succeed (BitVec.add_zero _).symm
    | _ => cases hu
  · intro t e
    rw [(exec_other_units e).1 hu, if_neg (by rintro rfl; exact hu rfl)]; exact (BitVec.add_zero _).symm

/-! Runs. -/

/-- The state in which the host has set DATA and CTR for a command. -/
def State.hosted (s : State) (h : HostedCommand) : State := { s with data := h.data, ctrLo := h.ctrLo, ctrHi := h.ctrHi }

/-- The invariant does not speak of DATA and CTR. -/
theorem State.Inv.hosted {s : State} (hinv : s.Inv) (h : HostedCommand) : (s.hosted h).Inv :=
  ⟨hinv.cipher, hinv.mac, hinv.hash, hinv.hash_absorbed,
    ⟨hinv.latch.not_both, hinv.latch.busy_clear, hinv.latch.err_iff⟩, hinv.window.congr rfl rfl⟩

/-- The induction over a run of commands: if a state that meets `P` of the commands to come answers its first one with a next
state that meets `P` of the rest, the run answers a state that meets `P` of no commands. -/
theorem execHosted_induction {P : List HostedCommand → State → Prop}
    (next : ∀ h rest s, P (h :: rest) s → ∃ t, exec h.cmd (s.hosted h) = .next t ∧ P rest t)
    {cmds : List HostedCommand} {s : State} (hs : P cmds s) : ∃ t, execHosted cmds s = .next t ∧ P [] t := by
  induction cmds generalizing s with
  | nil => exact ⟨s, rfl, hs⟩
  | cons h rest ih =>
    obtain ⟨t, e, ht⟩ := next h rest s hs
    obtain ⟨u, e', hu⟩ := ih ht
    refine ⟨u, ?_, hu⟩
    rw [State.hosted] at e
    rw [execHosted, e]
    exact e'

/-- What holds before commands that keep the key: the invariant, and the key, nonce and round count in SC. -/
structure KeyedRun (base : Vector Word 16) (rounds : BitVec 16) (cmds : List HostedCommand) (s : State) : Prop where
  inv : s.Inv
  keyedBy : s.sc.KeyedBy base rounds
  keeps : ∀ h ∈ cmds, KeepsKey h.cmd

theorem KeyedRun.next {base : Vector Word 16} {rounds : BitVec 16} {h : HostedCommand} {rest : List HostedCommand}
    {s : State} (hs : KeyedRun base rounds (h :: rest) s) :
    ∃ t, exec h.cmd (s.hosted h) = .next t ∧ KeyedRun base rounds rest t := by
  obtain ⟨hh, hrest⟩ := List.forall_mem_cons.1 hs.keeps
  have hinv := hs.inv.hosted h
  obtain ⟨t, e⟩ := exec_total hinv h.cmd
  exact ⟨t, e, exec_inv_of_keepsKey hh hinv e, exec_keyedBy (s := s.hosted h) hs.keyedBy hh t e, hrest⟩

/-- SC_INIT gives the unit the input block of key and nonce (40_salsa20.md R113). -/
theorem exec_scInit_keyedBy {s t : State} (e : exec (.scInit 32 8) s = .next t) :
    t.sc.KeyedBy (initstate (s.dataSlice 0 32) (s.dataSlice 32 8)) s.sc.rounds := by
  rw [exec_scInit] at e
  cases e
  exact ⟨rfl, ⟨_, rfl, rfl⟩, rfl⟩

/-- Settles O37: the words but 8 and 9 stay those of SC_INIT over the run, and key and nonce are read from them. -/
theorem keyAndNonceReadBack : Obligations.KeyAndNonceReadBack := by
  intro s t h e cmds hcmds
  obtain ⟨u, hu, hrun⟩ := execHosted_induction (fun _ _ _ => KeyedRun.next)
    (⟨exec_inv h rfl e, exec_scInit_keyedBy e, hcmds⟩ : KeyedRun _ _ cmds t)
  obtain ⟨st, hst, hbase⟩ := hrun.keyedBy.state
  have hkey : stateKey st = s.dataSlice 0 32 :=
    (stateKey_congr hbase).trans (stateKey_initstate _ _ (dataSlice_length s 0 32 (by decide)))
  have hnonce : stateNonce st = s.dataSlice 32 8 :=
    (stateNonce_congr hbase).trans (stateNonce_initstate _ _ (dataSlice_length s 32 8 (by decide)))
  refine ⟨u, _, _, hu, exec_scGetKey_of_state hrun.keyedBy.keyed hst, ?_, rfl,
    exec_scGetNonce_of_state hrun.keyedBy.keyed hst, ?_, rfl⟩
  · rw [State.complete_out, putResult_out_toList u (by simp), stateKey_length, hkey]; rfl
  · rw [State.complete_out, putResult_out_toList u (by simp), stateNonce_length, hnonce]; rfl

/-- How many SC_GET_NEXT_BLOCKs a run holds. -/
def nextBlocks (cmds : List HostedCommand) : Nat := cmds.countP fun h => decide (h.cmd = .scGetNextBlock)

theorem nextBlocks_cons (h : HostedCommand) (cmds : List HostedCommand) :
    nextBlocks (h :: cmds) = nextBlocks cmds + if h.cmd = .scGetNextBlock then 1 else 0 := by
  simp [nextBlocks, List.countP_cons]

/-- A run without SC_RESET too, with the value `final` that the counter comes to by the SC_GET_NEXT_BLOCKs to come. -/
structure CountingRun (base : Vector Word 16) (rounds : BitVec 16) (final : BitVec 64) (cmds : List HostedCommand)
    (s : State) : Prop where
  run : KeyedRun base rounds cmds s
  noReset : ∀ h ∈ cmds, h.cmd ≠ .scReset
  counter : s.sc.blockCounter + BitVec.ofNat 64 (nextBlocks cmds) = final

theorem CountingRun.next {base : Vector Word 16} {rounds : BitVec 16} {final : BitVec 64} {h : HostedCommand}
    {rest : List HostedCommand} {s : State} (hs : CountingRun base rounds final (h :: rest) s) :
    ∃ t, exec h.cmd (s.hosted h) = .next t ∧ CountingRun base rounds final rest t := by
  obtain ⟨hh, hrest⟩ := List.forall_mem_cons.1 hs.noReset
  obtain ⟨t, e, hrun⟩ := hs.run.next
  have hcounter := exec_blockCounter (s := s.hosted h) hs.run.keyedBy.keyed (hs.run.keeps h List.mem_cons_self) hh t e
  refine ⟨t, e, hrun, hrest, ?_⟩
  rw [← hs.counter, hcounter, nextBlocks_cons, BitVec.ofNat_add, add_comm (BitVec.ofNat 64 (nextBlocks rest)), ← add_assoc,
    apply_ite (BitVec.ofNat 64)]
  rfl

/-- CTR set to a number in two words is that number modulo 2^64 (10_state.md R39). -/
theorem ofNat_div_append_ofNat (n : Nat) : BitVec.ofNat 32 (n / 2 ^ 32) ++ BitVec.ofNat 32 n = BitVec.ofNat 64 n := by
  apply BitVec.eq_of_toNat_eq
  rw [toNat_append_eq_add, BitVec.toNat_ofNat, BitVec.toNat_ofNat, BitVec.toNat_ofNat]
  omega

/-- Settles O39: after the run the counter is the number of SC_GET_NEXT_BLOCKs, and the words but 8 and 9 are as before it. -/
theorem nextBlocksFollowGetBlock : Obligations.NextBlocksFollowGetBlock := by
  intro s h hk hzero cmds hcmds
  obtain ⟨base, hbase⟩ := state_of_keyed h hk
  have hstart : CountingRun base s.sc.rounds (BitVec.ofNat 64 (nextBlocks cmds)) cmds s :=
    ⟨⟨h, ⟨hk, ⟨base, hbase, rfl⟩, rfl⟩, fun c hc => ⟨(hcmds c hc).1, (hcmds c hc).2.1⟩⟩,
      fun c hc => (hcmds c hc).2.2, by rw [hzero]; exact BitVec.zero_add _⟩
  obtain ⟨t, ht, ⟨hrun, -, hcounter⟩⟩ := execHosted_induction (fun _ _ _ => CountingRun.next) hstart
  obtain ⟨st, hst, hwords⟩ := hrun.keyedBy.state
  have hfinal : t.sc.blockCounter = BitVec.ofNat 64 (nextBlocks cmds) := (BitVec.add_zero _).symm.trans hcounter
  refine ⟨t, _, _, ht, exec_scGetNextBlock_of_state hrun.keyedBy.keyed hst, exec_scGetBlock_of_state hk hbase, ?_⟩
  show block64 (salsablock st t.sc.blockCounter t.sc.rounds.toNat) = block64 (salsablock base
    (BitVec.ofNat 32 (nextBlocks cmds / 2 ^ 32) ++ BitVec.ofNat 32 (nextBlocks cmds)) s.sc.rounds.toNat)
  rw [hfinal, hrun.keyedBy.rounds_eq, salsablock_congr hwords, ofNat_div_append_ofNat]

end Sys2Proof.Machine

/-! The commands of the MAC unit (41_hmac.md R151, R154 to R160). -/

namespace Sys2Proof.Machine

/-- Settles O53: the length decides whether the key is hashed, and zeros fill what is left of 64 bytes. -/
theorem normalisedKeyCases : Obligations.NormalisedKeyCases := by
  intro k
  constructor
  · intro hk
    have hhash : normkey k = block64 (sha256 k) := congrArg block64 (if_pos hk)
    rw [hhash, block64_toList _ (by simp), sha256_length]
    exact ⟨rfl, rfl⟩
  · intro hk
    have hself : normkey k = block64 k := congrArg block64 (if_neg (Nat.not_lt.2 hk))
    rw [hself]
    exact block64_toList k hk

theorem exec_macKeyAppend_of_room {n : Nat} {s : State} (hn : n ≤ 64) (hroom : s.mc.ks.length + n ≤ 2 ^ 61 - 1) :
    exec (.macKeyAppend n) s = .next (State.complete { s with mc := { s.mc with ks := s.mc.ks ++ s.dataBytes n } }) :=
  (if_neg (Nat.not_lt.2 hn)).trans (if_neg (Nat.not_lt.2 hroom))

/-- Settles O43: the two checks decide among the three answers. -/
theorem macKeyAppendStagesBytes : Obligations.MacKeyAppendStagesBytes :=
  ⟨fun _ _ hn hroom => exec_macKeyAppend_of_room hn hroom, fun _ _ h => if_pos h,
    fun _ _ hn hfull => (if_neg (Nat.not_lt.2 hn)).trans (if_pos hfull),
    refusesReserved_row .macKeyAppend, decodesAs_row .macKeyAppend⟩

/-- Settles O44: the command checks nothing. -/
theorem macKeyCommitPrimesInnerHash : Obligations.MacKeyCommitPrimesInnerHash :=
  ⟨fun _ => rfl, refusesReserved_row .macKeyCommit, decodesAs_row .macKeyCommit⟩

/-! The guards that MAC_UPDATE and MAC_FINALIZE_DATA share. -/

/-- Check LEN, the phase and the length limit, and go on with MC.ictx (41_hmac.md R157, R159). -/
def takeMessage (n : Nat) (s : State) (k : ShaContext → Result) : Result :=
  if n > Config.lenMax then raiseError s .len
  else whenReady s fun c => if c.cnt + n > Config.shaMaxBytes then raiseError s .msgTooLong else k c

theorem exec_macUpdate (n : Nat) (s : State) : exec (.macUpdate n) s = takeMessage n s fun c =>
    succeed { s with mc := { s.mc with ictx := some (absorb c (s.dataBytes n)) } } := rfl

theorem exec_macFinalizeData (n : Nat) (s : State) : exec (.macFinalizeData n) s = takeMessage n s fun c =>
    finishMac s (absorb c (s.dataBytes n)) := rfl

section TakeMessage

variable {n : Nat} {s : State} {c : ShaContext} (k : ShaContext → Result)

theorem takeMessage_of_long (h : 64 < n) : takeMessage n s k = .next (s.raiseError .len) := if_pos h

theorem takeMessage_of_unkeyed (hn : n ≤ 64) (hp : s.mc.phase = .unkeyed) :
    takeMessage n s k = .next (s.raiseError .notInit) :=
  (if_neg (Nat.not_lt.2 hn)).trans (whenReady_of_unkeyed _ hp)

theorem takeMessage_of_finalized (hn : n ≤ 64) (hp : s.mc.phase = .finalized) :
    takeMessage n s k = .next (s.raiseError .misuse) :=
  (if_neg (Nat.not_lt.2 hn)).trans (whenReady_of_finalized _ hp)

theorem takeMessage_of_full (hn : n ≤ 64) (hp : s.mc.phase = .ready) (hc : s.mc.ictx = some c)
    (hfull : 2 ^ 61 - 1 < c.cnt + n) : takeMessage n s k = .next (s.raiseError .msgTooLong) :=
  ((if_neg (Nat.not_lt.2 hn)).trans (whenReady_of_context _ hp hc)).trans (if_pos hfull)

theorem takeMessage_of_room (hn : n ≤ 64) (hp : s.mc.phase = .ready) (hc : s.mc.ictx = some c)
    (hroom : c.cnt + n ≤ 2 ^ 61 - 1) : takeMessage n s k = k c :=
  ((if_neg (Nat.not_lt.2 hn)).trans (whenReady_of_context _ hp hc)).trans (if_neg (Nat.not_lt.2 hroom))

end TakeMessage

/-- Settles O45: the guards decide among the five answers. -/
theorem macUpdateAbsorbsData : Obligations.MacUpdateAbsorbsData :=
  ⟨fun _ _ _ hn hp hc hroom => takeMessage_of_room _ hn hp hc hroom, fun _ _ h => takeMessage_of_long _ h,
    fun _ _ hn hp => takeMessage_of_unkeyed _ hn hp, fun _ _ hn hp => takeMessage_of_finalized _ hn hp,
    fun _ _ _ hn hp hc hfull => takeMessage_of_full _ hn hp hc hfull,
    refusesReserved_row .macUpdate, decodesAs_row .macUpdate⟩

/-! A unit in phase Ready, and the tag. -/

/-- MC is in phase Ready with these key bytes and this inner context. -/
structure MacUnit.ReadyWith (u : MacUnit) (kp : Vector Byte 64) (c : ShaContext) : Prop where
  phase : u.phase = .ready
  kpad : u.kpad = some kp
  ictx : u.ictx = some c

/-- The state that MAC_FINALIZE and MAC_FINALIZE_DATA leave, from the inner context c: the tag in OUT, the context consumed, phase
Finalized (41_hmac.md R158). -/
def State.emitTag (s : State) (kp : Vector Byte 64) (c : ShaContext) : State :=
  { s with
    mc := { s.mc with ictx := none, phase := .finalized }, out := block64 (macTag kp c), outLen := 32,
    done := true, err := false, errCode := .ok, pending := none }

@[simp] theorem emitTag_out (s : State) (kp : Vector Byte 64) (c : ShaContext) :
    (s.emitTag kp c).out = block64 (macTag kp c) := rfl

theorem finishMac_eq_emitTag {s : State} {kp : Vector Byte 64} (c : ShaContext) (h : s.mc.kpad = some kp) :
    finishMac s c = .next (s.emitTag kp c) := by
  rw [finishMac_of_kpad c h, State.putResult, macTag_length]; rfl

/-- OUT after a tag (10_state.md R42). -/
theorem block64_macTag (kp : Vector Byte 64) (c : ShaContext) :
    (block64 (macTag kp c)).toList = macTag kp c ++ List.replicate 32 0 := by
  rw [block64_toList _ (by simp), macTag_length]; rfl

section Ready

variable {s : State} {kp : Vector Byte 64} {c : ShaContext} (h : s.mc.ReadyWith kp c)
include h

theorem exec_macFinalize_of_ready : exec .macFinalize s = .next (s.emitTag kp c) :=
  (whenReady_of_context _ h.phase h.ictx).trans (finishMac_eq_emitTag c h.kpad)

variable {n : Nat} (hn : n ≤ 64) (hroom : c.cnt + n ≤ 2 ^ 61 - 1)
include hn hroom

theorem exec_macUpdate_of_ready : exec (.macUpdate n) s = .next (State.complete
    { s with mc := { s.mc with ictx := some (absorb c (s.dataBytes n)) } }) :=
  (exec_macUpdate n s).trans (takeMessage_of_room _ hn h.phase h.ictx hroom)

theorem exec_macFinalizeData_of_ready :
    exec (.macFinalizeData n) s = .next (s.emitTag kp (absorb c (s.dataBytes n))) :=
  ((exec_macFinalizeData n s).trans (takeMessage_of_room _ hn h.phase h.ictx hroom)).trans (finishMac_eq_emitTag _ h.kpad)

end Ready

/-- Settles O46: the guard decides among the three answers, and the 32 tag bytes and 32 zeros fill OUT. -/
theorem macFinalizeEmitsTag : Obligations.MacFinalizeEmitsTag :=
  ⟨fun _ c kp hp hc hkp => ⟨_, block64_macTag kp c, exec_macFinalize_of_ready ⟨hp, hkp, hc⟩⟩,
    fun _ h => whenReady_of_unkeyed _ h, fun _ h => whenReady_of_finalized _ h,
    refusesReserved_row .macFinalize, decodesAs_row .macFinalize⟩

/-- Settles O47: the guards are those of MAC_UPDATE, and the tag is that of the context after DATA. -/
theorem macFinalizeDataAbsorbsAndEmitsTag : Obligations.MacFinalizeDataAbsorbsAndEmitsTag :=
  ⟨fun _ _ _ kp hn hp hc hkp hroom =>
      ⟨_, block64_macTag kp _, exec_macFinalizeData_of_ready ⟨hp, hkp, hc⟩ hn hroom⟩,
    fun _ _ h => takeMessage_of_long _ h, fun _ _ hn hp => takeMessage_of_unkeyed _ hn hp,
    fun _ _ hn hp => takeMessage_of_finalized _ hn hp, fun _ _ _ hn hp hc hfull => takeMessage_of_full _ hn hp hc hfull,
    refusesReserved_row .macFinalizeData, decodesAs_row .macFinalizeData⟩

theorem exec_macReset_of_unkeyed {s : State} (hp : s.mc.phase = .unkeyed) :
    exec .macReset s = .next (s.raiseError .notInit) := if_pos hp

theorem exec_macReset_of_kpad {s : State} {kp : Vector Byte 64} (hp : s.mc.phase ≠ .unkeyed) (hkp : s.mc.kpad = some kp) :
    exec .macReset s = .next (State.complete
      { s with mc := { s.mc with ictx := some (primeInner kp), phase := .ready } }) :=
  (if_neg hp).trans (withKeyPad_of_some _ hkp)

/-- Settles O48: the guard decides between the two answers. -/
theorem macResetPrimesInnerHash : Obligations.MacResetPrimesInnerHash :=
  ⟨fun _ _ hp hkp => exec_macReset_of_kpad hp hkp, fun _ h => exec_macReset_of_unkeyed h,
    refusesReserved_row .macReset, decodesAs_row .macReset⟩

end Sys2Proof.Machine

/-! MC over several commands: its phases, its message and its staged key (41_hmac.md R154, R161, R162). -/

namespace Sys2Proof.Machine

/-! One command. -/

theorem readyWith_of_inv {s : State} {c : ShaContext} (h : s.Inv) (hp : s.mc.phase = .ready) (hc : s.mc.ictx = some c) :
    ∃ kp, s.mc.ReadyWith kp c := by
  obtain ⟨kp, hkp⟩ := kpad_of_keyed h (by simp [hp])
  exact ⟨kp, hp, hkp, hc⟩

/-- MAC_RESET primes the inner context with the key it finds (41_hmac.md R160). -/
theorem exec_macReset_readyWith {s : State} {kp : Vector Byte 64} (hp : s.mc.phase ≠ .unkeyed) (hkp : s.mc.kpad = some kp) :
    ∃ t, exec .macReset s = .next t ∧ t.mc.ReadyWith kp (primeInner kp) :=
  ⟨_, exec_macReset_of_kpad hp hkp, rfl, hkp, rfl⟩

/-- MAC_KEY_APPEND keeps the phase, whether it stages bytes or refuses them (41_hmac.md R155). -/
theorem exec_macKeyAppend_phase (n : Nat) (s : State) :
    Ensures (fun t => t.mc.phase = s.mc.phase) (exec (.macKeyAppend n) s) :=
  ensures_ite (ensures_raiseError rfl) fun _ => ensures_ite (ensures_raiseError rfl) fun _ => ensures_succeed rfl

/-- Settles O49: the rows of the table, from the guards in phases Unkeyed and Finalized and from the commands' answers in the
others; the invariant gives the key and the inner context. -/
theorem macPhaseTable : Obligations.MacPhaseTable := by
  intro s h
  have reset (hk : s.mc.phase ≠ .unkeyed) : ∃ t, exec .macReset s = .next t ∧ t.err = false ∧ t.mc.phase = .ready := by
    obtain ⟨kp, hkp⟩ := kpad_of_keyed h hk
    exact ⟨_, exec_macReset_of_kpad hk hkp, rfl, rfl⟩
  refine ⟨fun n => ?_, ⟨_, rfl, rfl, rfl⟩, ?_, ?_, fun hp => reset (by simp [hp]), fun hp => ⟨reset (by simp [hp]), ?_⟩⟩
  · obtain ⟨t, e⟩ := exec_total h (.macKeyAppend n)
    exact ⟨t, e, exec_macKeyAppend_phase n s t e⟩
  · rintro i (rfl | rfl | ⟨n, hn, rfl | rfl⟩) hp
    · exact whenReady_of_unkeyed _ hp
    · exact exec_macReset_of_unkeyed hp
    · exact takeMessage_of_unkeyed _ hn hp
    · exact takeMessage_of_unkeyed _ hn hp
  · rintro i (rfl | ⟨n, hn, rfl | rfl⟩) hp
    · exact whenReady_of_finalized _ hp
    · exact takeMessage_of_finalized _ hn hp
    · exact takeMessage_of_finalized _ hn hp
  · obtain ⟨c, hc⟩ := ictx_of_ready h hp
    obtain ⟨kp, hready⟩ := readyWith_of_inv h hp hc
    exact ⟨⟨_, exec_macFinalize_of_ready hready, rfl, rfl⟩, fun n hn hroom =>
      ⟨⟨_, exec_macUpdate_of_ready hready hn (hroom c hc), rfl, hp⟩,
        ⟨_, exec_macFinalizeData_of_ready hready hn (hroom c hc), rfl, rfl⟩⟩⟩

/-! Runs of commands that keep the message. -/

/-- The command neither starts a message nor ends one: it is no commit, no MAC_RESET and no finalize (41_hmac.md R161). -/
def KeepsMessage (i : Instr) : Prop :=
  i ≠ .macKeyCommit ∧ i ≠ .macReset ∧ i ≠ .macFinalize ∧ ∀ n, i ≠ .macFinalizeData n

theorem macBytes_of_ne {h : HostedCommand} (hu : ∀ n, h.cmd ≠ .macUpdate n) : h.macBytes = [] := by
  unfold HostedCommand.macBytes
  split
  · exact absurd ‹_› (hu _)
  · rfl

theorem macBytes_of_macUpdate {h : HostedCommand} {n : Nat} (e : h.cmd = .macUpdate n) :
    h.macBytes = if n ≤ 64 then h.data.toList.take n else [] := by
  unfold HostedCommand.macBytes
  rw [e]

/-- In phase Ready such a command other than MAC_UPDATE changes neither the phase, the key nor the inner context (41_hmac.md R155,
R161). -/
theorem exec_readyWith_of_ne {s : State} {kp : Vector Byte 64} {c : ShaContext} (hs : s.mc.ReadyWith kp c) {i : Instr}
    (hk : KeepsMessage i) (hu : ∀ n, i ≠ .macUpdate n) : Ensures (fun t => t.mc.ReadyWith kp c) (exec i s) := by
  obtain ⟨hcommit, hreset, hfin, hfinData⟩ := hk
  by_cases hmc : i.unit = .mc
  · cases i with
    | macKeyAppend n =>
      exact ensures_ite (ensures_raiseError hs) fun _ => ensures_ite (ensures_raiseError hs) fun _ =>
        ensures_succeed ⟨hs.phase, hs.kpad, hs.ictx⟩
    | macKeyCommit => exact absurd rfl hcommit
    | macUpdate n => exact absurd rfl (hu n)
    | macFinalize => exact absurd rfl hfin
    | macFinalizeData n => exact absurd rfl (hfinData n)
    | macReset => exact absurd rfl hreset
    | _ => cases hmc
  · intro t e
    obtain ⟨_, hkeep, _⟩ := exec_other_units e
    rw [hkeep hmc]; exact hs

/-- In phase Ready such a command absorbs its message bytes and changes neither the phase nor the key (41_hmac.md R157, R161). -/
theorem exec_readyWith {s : State} {kp : Vector Byte 64} {c : ShaContext} (hs : s.mc.ReadyWith kp c) {h : HostedCommand}
    (hk : KeepsMessage h.cmd) (hroom : c.cnt + h.macBytes.length ≤ Config.shaMaxBytes) :
    Ensures (fun t => t.mc.ReadyWith kp (absorb c h.macBytes)) (exec h.cmd (s.hosted h)) := by
  have hs' : (s.hosted h).mc.ReadyWith kp c := hs
  by_cases hu : ∃ n, h.cmd = .macUpdate n
  · obtain ⟨n, hcmd⟩ := hu
    rw [hcmd]
    by_cases hn : n ≤ 64
    · have hbytes : h.macBytes = (s.hosted h).dataBytes n := (macBytes_of_macUpdate hcmd).trans (if_pos hn)
      rw [hbytes, dataBytes_length _ n hn] at hroom
      rw [hbytes, exec_macUpdate_of_ready hs' hn hroom]
      exact ensures_succeed ⟨hs.phase, hs.kpad, rfl⟩
    · have hbytes : h.macBytes = [] := (macBytes_of_macUpdate hcmd).trans (if_neg hn)
      rw [hbytes, exec_macUpdate, takeMessage_of_long _ (not_le.1 hn)]
      exact ensures_raiseError hs
  · rw [macBytes_of_ne (not_exists.1 hu)]
    exact exec_readyWith_of_ne hs' hk (not_exists.1 hu)

/-- What holds before commands that keep the message: the invariant, and an inner context that the message bytes to come take to
`final`. -/
structure MessageRun (kp : Vector Byte 64) (final : ShaContext) (cmds : List HostedCommand) (s : State) : Prop where
  inv : s.Inv
  context : ∃ c, s.mc.ReadyWith kp c ∧ absorb c (cmds.flatMap HostedCommand.macBytes) = final
  keeps : ∀ h ∈ cmds, h.cmd.WellFormed ∧ KeepsMessage h.cmd

theorem MessageRun.next {kp : Vector Byte 64} {final : ShaContext} (hfinal : final.cnt ≤ Config.shaMaxBytes)
    {h : HostedCommand} {rest : List HostedCommand} {s : State} (hs : MessageRun kp final (h :: rest) s) :
    ∃ t, exec h.cmd (s.hosted h) = .next t ∧ MessageRun kp final rest t := by
  obtain ⟨⟨hw, hh⟩, hrest⟩ := List.forall_mem_cons.1 hs.keeps
  obtain ⟨c, hready, rfl⟩ := hs.context
  rw [List.flatMap_cons, absorb_append] at hfinal ⊢
  have hroom : c.cnt + h.macBytes.length ≤ Config.shaMaxBytes := by
    rw [absorb_cnt, absorb_cnt] at hfinal
    exact (Nat.le_add_right _ _).trans hfinal
  have hinv := hs.inv.hosted h
  obtain ⟨t, e⟩ := exec_total hinv h.cmd
  exact ⟨t, e, exec_inv hinv hw e, ⟨_, exec_readyWith hready hh hroom t e, rfl⟩, hrest⟩

/-- A commit of a key, and a MAC_RESET under it, prime the inner context with it (41_hmac.md R156, R160). -/
theorem readyWith_of_primed {s t : State} {key : List Byte}
    (h : (exec .macKeyCommit s = .next t ∧ key = s.mc.ks) ∨
      (exec .macReset s = .next t ∧ s.mc.phase ≠ .unkeyed ∧ s.mc.kpad = some (normkey key))) :
    t.mc.ReadyWith (normkey key) (primeInner (normkey key)) := by
  obtain ⟨e, rfl⟩ | ⟨e, hp, hkp⟩ := h
  · cases e; exact ⟨rfl, rfl, rfl⟩
  · obtain ⟨t', e', hprimed⟩ := exec_macReset_readyWith hp hkp
    cases e'.symm.trans e; exact hprimed

/-- Settles O50: the run takes the primed context to that after the whole message, whose tag is HMAC. -/
theorem innerStateYieldsHmac : Obligations.InnerStateYieldsHmac := by
  intro s t key cmds h hstart hcmds hlimit
  have hinv : t.Inv := hstart.elim (fun hc => exec_inv h rfl hc.1) fun hr => exec_inv h rfl hr.1
  have hfinal : (absorb (primeInner (normkey key)) (cmds.flatMap HostedCommand.macBytes)).cnt ≤ Config.shaMaxBytes := by
    rwa [absorb_cnt, primeInner_cnt]
  have hrun : MessageRun (normkey key) _ cmds t := ⟨hinv, ⟨_, readyWith_of_primed hstart, rfl⟩, hcmds⟩
  obtain ⟨u, hu, -, ⟨c, hready, hc⟩, -⟩ := execHosted_induction (fun _ _ _ => MessageRun.next hfinal) hrun
  have hmsg : c = absorb (primeInner (normkey key)) (cmds.flatMap HostedCommand.macBytes) := hc
  refine ⟨u, _, hu, hready.phase, ?_, exec_macFinalize_of_ready hready, ?_, rfl⟩
  · rw [hready.ictx, hmsg, absorb_append]; rfl
  · rw [emitTag_out, block64_macTag, hmsg, macTag_primeInner]

/-! Byte sequences fed in chunks. -/

/-- The induction over the chunks of a byte sequence: if every chunk within the limit takes a state that meets `P` of the bytes so
far to one that meets `P` of the bytes with the chunk, the whole sequence is fed. -/
theorem feedChunks_induction {cmd : Nat → Instr} {P : List Byte → State → Prop} {base : Nat}
    (next : ∀ m b s, b.length ≤ 64 → base + (m ++ b).length ≤ Config.shaMaxBytes → P m s →
      ∃ t, exec (cmd b.length) (s.loaded b) = .next t ∧ P (m ++ b) t)
    {chunks : List (List Byte)} (hlen : ∀ b ∈ chunks, b.length ≤ 64) {m : List Byte} {s : State}
    (hlimit : base + (m ++ chunks.flatten).length ≤ Config.shaMaxBytes) (hs : P m s) :
    ∃ t, feedChunks cmd chunks s = .next t ∧ P (m ++ chunks.flatten) t := by
  induction chunks generalizing m s with
  | nil => exact ⟨s, rfl, by rwa [List.flatten_nil, List.append_nil]⟩
  | cons b rest ih =>
    obtain ⟨hb, hrest⟩ := List.forall_mem_cons.1 hlen
    rw [List.flatten_cons, ← List.append_assoc] at hlimit ⊢
    have hroom : base + (m ++ b).length ≤ Config.shaMaxBytes := by
      rw [List.length_append] at hlimit; omega
    obtain ⟨t, e, ht⟩ := next m b s hb hroom hs
    obtain ⟨u, e', hu⟩ := ih hrest hlimit ht
    exact ⟨u, by rw [feedChunks, e]; exact e', hu⟩

/-- MAC_UPDATE of chunks within the limit absorbs their concatenation (41_hmac.md R157, R162). -/
theorem feedChunks_macUpdate {s : State} {kp : Vector Byte 64} {c : ShaContext} (h : s.mc.ReadyWith kp c)
    {chunks : List (List Byte)} (hlen : ∀ b ∈ chunks, b.length ≤ 64)
    (hlimit : c.cnt + chunks.flatten.length ≤ Config.shaMaxBytes) :
    ∃ t, feedChunks .macUpdate chunks s = .next t ∧ t.mc.ReadyWith kp (absorb c chunks.flatten) := by
  refine feedChunks_induction (P := fun m t => t.mc.ReadyWith kp (absorb c m)) (fun m b t hb hroom ht => ?_) hlen
    (m := []) hlimit h
  rw [List.length_append, ← Nat.add_assoc, ← absorb_cnt] at hroom
  have hloaded : (t.loaded b).mc.ReadyWith kp (absorb c m) := ht
  refine ⟨_, exec_macUpdate_of_ready hloaded hb hroom, ht.phase, ht.kpad, ?_⟩
  rw [dataBytes_loaded t b hb, absorb_append]; rfl

/-- Settles O51: a tag is that of the key and of the context after all bytes, and MAC_RESET primes that context again. -/
theorem macSplitsAndRepeatsAgree : Obligations.MacSplitsAndRepeatsAgree := by
  refine ⟨fun s a b c h hp hc hlen hlimit => ?_, fun s xs ys c h hp hc hxs hys hflat hlimit => ?_,
    fun s kp xs hp hkp hc hlen hlimit => ?_⟩
  · obtain ⟨kp, hready⟩ := readyWith_of_inv h hp hc
    have hflat : [a, b].flatten = a ++ b := by simp
    have hchunks : ∀ x ∈ [a, b], x.length ≤ 64 := by
      rw [List.length_append] at hlen
      simp; omega
    obtain ⟨u, hu, hready'⟩ := feedChunks_macUpdate hready hchunks (by rwa [hflat])
    have hloaded : (s.loaded (a ++ b)).mc.ReadyWith kp c := hready
    refine ⟨u, _, _, hu, exec_macFinalize_of_ready hready', exec_macFinalizeData_of_ready hloaded hlen hlimit, ?_, rfl⟩
    rw [emitTag_out, emitTag_out, dataBytes_loaded s _ hlen, hflat]
  · obtain ⟨kp, hready⟩ := readyWith_of_inv h hp hc
    obtain ⟨u, hu, hready'⟩ := feedChunks_macUpdate hready hxs hlimit
    obtain ⟨u', hu', hready''⟩ := feedChunks_macUpdate hready hys (hflat ▸ hlimit)
    refine ⟨u, u', _, _, hu, exec_macFinalize_of_ready hready', hu', exec_macFinalize_of_ready hready'', ?_⟩
    rw [emitTag_out, emitTag_out, hflat]
  · have hready : s.mc.ReadyWith kp (primeInner kp) := ⟨hp, hkp, hc⟩
    have hroom : (primeInner kp).cnt + xs.flatten.length ≤ Config.shaMaxBytes := by rwa [primeInner_cnt]
    obtain ⟨u, hu, hready'⟩ := feedChunks_macUpdate hready hlen hroom
    obtain ⟨t', ht', hprimed⟩ :=
      exec_macReset_readyWith (s := u.emitTag kp (absorb (primeInner kp) xs.flatten)) nofun hready'.kpad
    obtain ⟨u', hu', hready''⟩ := feedChunks_macUpdate hprimed hlen hroom
    exact ⟨u, _, t', u', _, hu, exec_macFinalize_of_ready hready', ht', hu', exec_macFinalize_of_ready hready'', rfl⟩

/-- MAC_KEY_APPEND of chunks within the limit stages their concatenation and changes nothing else of MC (41_hmac.md R155). -/
theorem feedChunks_macKeyAppend {s : State} {chunks : List (List Byte)} (hlen : ∀ b ∈ chunks, b.length ≤ 64)
    (hlimit : s.mc.ks.length + chunks.flatten.length ≤ Config.shaMaxBytes) :
    ∃ t, feedChunks .macKeyAppend chunks s = .next t ∧ t.mc = { s.mc with ks := s.mc.ks ++ chunks.flatten } := by
  refine feedChunks_induction (P := fun m t => t.mc = { s.mc with ks := s.mc.ks ++ m }) (fun m b t hb hroom ht => ?_) hlen
    (m := []) hlimit (by rw [List.append_nil])
  have hstaged : (t.loaded b).mc = { s.mc with ks := s.mc.ks ++ m } := ht
  have hks : (t.loaded b).mc.ks.length + b.length ≤ 2 ^ 61 - 1 := by
    rw [hstaged, List.length_append, Nat.add_assoc, ← List.length_append]; exact hroom
  refine ⟨_, exec_macKeyAppend_of_room hb hks, ?_⟩
  rw [State.complete_mc, dataBytes_loaded t b hb, hstaged, List.append_assoc]

/-- Settles O52: the commit normalises what the chunks have staged. -/
theorem stagedChunksFormOneKey : Obligations.StagedChunksFormOneKey := by
  intro s chunks hlen hlimit
  obtain ⟨u, hu, hmc⟩ := feedChunks_macKeyAppend hlen hlimit
  have hks : u.mc.ks = s.mc.ks ++ chunks.flatten := by rw [hmc]
  exact ⟨u, _, hu, hmc, rfl, congrArg (some ∘ normkey) hks, rfl, rfl⟩

end Sys2Proof.Machine

/-! The hash unit HS and its contexts (42_sha256.md R187 to R193). -/

namespace Sys2Proof.Machine

/-! Contexts. -/

/-- Settles O59: the laws of `absorb`, for the bytes a and b as one sequence. -/
theorem absorbKeepsContext : Obligations.AbsorbKeepsContext := by
  intro c a b hwf hlimit
  rw [Nat.add_assoc, ← List.length_append] at hlimit ⊢
  exact ⟨absorb_wf c (a ++ b) hwf hlimit, absorb_cnt c (a ++ b), (absorb_append c a b).symm⟩

/-- The padding completes the last block (42_sha256.md R188). -/
theorem absorb_shaPad_buf {c : ShaContext} (h : c.Wf) : (absorb c (shaPad c.cnt)).buf = [] := by
  have hmod : (absorb c (shaPad c.cnt)).cnt % 64 = 0 := by rw [absorb_cnt, padded_length_mod]
  exact List.eq_nil_of_length_eq_zero ((absorb_buf c _ h.buf_length).trans hmod)

/-- Settles O58: the buffer holds the bytes past whole blocks, of which the padded message has none. -/
theorem shaFinalPadsToWholeBlocks : Obligations.ShaFinalPadsToWholeBlocks := fun c h =>
  ⟨absorb_shaPad_buf h, padded_length_mod c.cnt, sha256final_length c⟩

/-! The commands. -/

theorem exec_hashReset (s : State) : exec .hashReset s = .next (State.complete { s with hs := { hctx := shaInit } }) := rfl

theorem exec_hashUpdate_of_room {n : Nat} {s : State} (hn : n ≤ 64) (hroom : s.hs.hctx.cnt + n ≤ 2 ^ 61 - 1) :
    exec (.hashUpdate n) s = .next (State.complete { s with hs := { hctx := absorb s.hs.hctx (s.dataBytes n) } }) :=
  (if_neg (Nat.not_lt.2 hn)).trans (if_neg (Nat.not_lt.2 hroom))

theorem exec_hashUpdate_of_long {n : Nat} (s : State) (h : 64 < n) :
    exec (.hashUpdate n) s = .next (s.raiseError .len) := if_pos h

theorem exec_hashUpdate_of_full {n : Nat} {s : State} (hn : n ≤ 64) (hfull : 2 ^ 61 - 1 < s.hs.hctx.cnt + n) :
    exec (.hashUpdate n) s = .next (s.raiseError .msgTooLong) :=
  (if_neg (Nat.not_lt.2 hn)).trans (if_pos hfull)

/-- HASH_FINAL checks nothing, and its digest has 32 bytes (42_sha256.md R193). -/
theorem exec_hashFinal (s : State) : exec .hashFinal s = .next (State.complete
    { s with hs := { hctx := shaInit }, out := block64 (sha256final s.hs.hctx), outLen := 32 }) := by
  show succeed { s.putResult (sha256final s.hs.hctx) with hs := { hctx := shaInit } } = _
  rw [State.putResult, sha256final_length]; rfl

/-- OUT after a digest (10_state.md R42). -/
theorem block64_sha256final (c : ShaContext) :
    (block64 (sha256final c)).toList = sha256final c ++ List.replicate 32 0 := by
  rw [block64_toList _ (by simp), sha256final_length]; rfl

/-- Settles O54: the command checks nothing. -/
theorem hashResetStartsNewHash : Obligations.HashResetStartsNewHash :=
  ⟨exec_hashReset, refusesReserved_row .hashReset, decodesAs_row .hashReset⟩

/-- Settles O55: the two checks decide among the three answers. -/
theorem hashUpdateAbsorbsData : Obligations.HashUpdateAbsorbsData :=
  ⟨fun _ _ hn hroom => exec_hashUpdate_of_room hn hroom, fun _ s h => exec_hashUpdate_of_long s h,
    fun _ _ hn hfull => exec_hashUpdate_of_full hn hfull, refusesReserved_row .hashUpdate, decodesAs_row .hashUpdate⟩

/-- Settles O56: the 32 digest bytes and 32 zeros fill OUT. -/
theorem hashFinalEmitsDigest : Obligations.HashFinalEmitsDigest :=
  ⟨fun s => ⟨_, block64_sha256final s.hs.hctx, exec_hashFinal s⟩,
    refusesReserved_row .hashFinal, decodesAs_row .hashFinal⟩

/-! A message in chunks. -/

/-- HASH_UPDATE of chunks within the limit absorbs their concatenation (42_sha256.md R187, R192). -/
theorem feedChunks_hashUpdate {s : State} {chunks : List (List Byte)} (hlen : ∀ b ∈ chunks, b.length ≤ 64)
    (hlimit : s.hs.hctx.cnt + chunks.flatten.length ≤ Config.shaMaxBytes) :
    ∃ t, feedChunks .hashUpdate chunks s = .next t ∧ t.hs.hctx = absorb s.hs.hctx chunks.flatten := by
  refine feedChunks_induction (P := fun m t => t.hs.hctx = absorb s.hs.hctx m) (fun m b t hb hroom ht => ?_) hlen
    (m := []) hlimit rfl
  have hctx : (t.loaded b).hs.hctx = absorb s.hs.hctx m := ht
  rw [List.length_append, ← Nat.add_assoc, ← absorb_cnt, ← hctx] at hroom
  refine ⟨_, exec_hashUpdate_of_room hb hroom, ?_⟩
  rw [State.complete_hs, dataBytes_loaded t b hb, hctx, absorb_append]

/-- Settles O57: the chunks take SHA256_INIT to the context after the whole message, and HASH_FINAL gives its digest. -/
theorem hashOfChunksIsDigest : Obligations.HashOfChunksIsDigest := by
  intro s chunks hlen hlimit
  have hroom : shaInit.cnt + chunks.flatten.length ≤ Config.shaMaxBytes := (Nat.zero_add _).trans_le hlimit
  obtain ⟨u, hu, (hctx : u.hs.hctx = absorb shaInit chunks.flatten)⟩ :=
    feedChunks_hashUpdate (s := State.complete { s with hs := { hctx := shaInit } }) hlen hroom
  refine ⟨_, u, _, exec_hashReset s, hu, exec_hashFinal u, ?_, rfl, rfl⟩
  rw [State.complete_out, block64_sha256final, hctx]; rfl

end Sys2Proof.Machine

/-! The engine step and its completion: a word pending, the latches it leaves, the issue before it and the idle engine
(60_exceptions.md R220 to R225, R234). -/

namespace Sys2Proof.Machine

/-! How an engine step ends. -/

/-- OK is the one error code with value 0x00 (60_exceptions.md R224). -/
theorem ErrCode.value_eq_zero_iff (e : ErrCode) : e.value = 0 ↔ e = .ok := by cases e <;> decide

/-- An engine step ends in one of two ways: an error, which changes only STATUS, or completion of a state that keeps the frame of
the decoded command. -/
theorem engineStep_cases {c : Word} {s t : State} (e : engineStep c s = .next t) :
    (∃ ec, ec ≠ .ok ∧ t = s.raiseError ec) ∨ (∃ (i : Instr) (s' : State), t = s'.complete ∧ CommandFrame i s s') := by
  cases hc : decode c with
  | error r =>
    rw [engineStep_of_error hc] at e
    cases e; exact .inl ⟨_, by decide, rfl⟩
  | ok i =>
    rw [engineStep_of_ok hc] at e
    exact (exec_cases e).imp_right fun ⟨s', ht, frame⟩ => ⟨i, s', ht, frame⟩

/-- Settles O12: under the invariant the engine step answers a next state, which is an error's or a completed command's. -/
theorem pendingCommandCompletesOnce : Obligations.PendingCommandCompletesOnce := by
  intro s c rest h hp he
  obtain ⟨t, ht⟩ := engineStep_total (h.outside rest s.fault s.rdata) c
  refine ⟨t, (step_engine hp he).trans ht, ?_⟩
  obtain ⟨ec, _, rfl⟩ | ⟨i, s', rfl, frame⟩ := engineStep_cases ht
  · exact ⟨rfl, rfl, rfl, rfl, rfl, rfl, rfl, rfl⟩
  · exact ⟨rfl, rfl, frame.data, frame.ctrLo, frame.ctrHi, frame.fault, frame.turns, frame.rdata⟩

/-- Settles O13: only an error completion sets ERR, and its code is not OK. -/
theorem errorChangesOnlyStatus : Obligations.ErrorChangesOnlyStatus := by
  intro i s t e herr
  obtain ⟨ec, hec, rfl⟩ | ⟨s', rfl, _⟩ := exec_cases e
  · exact ⟨rfl, mt (ErrCode.value_eq_zero_iff ec).1 hec⟩
  · cases herr

/-- Settles O14: only a success completion leaves ERR at 0. -/
theorem successSetsDone : Obligations.SuccessSetsDone := by
  intro i s t e herr
  obtain ⟨ec, _, rfl⟩ | ⟨s', rfl, _⟩ := exec_cases e
  · cases herr
  · exact ⟨rfl, rfl, rfl⟩

theorem engineStep_latchInv {c : Word} {s t : State} (e : engineStep c s = .next t) : t.LatchInv := by
  obtain ⟨ec, hec, rfl⟩ | ⟨_, s', rfl, _⟩ := engineStep_cases e
  · exact raiseError_latchInv s hec
  · exact complete_latchInv s'

/-- Settles O15: an illegal word raises its own code, and a command reports its first error. -/
theorem errorReportedIsFirstInOrder : Obligations.ErrorReportedIsFirstInOrder := by
  refine ⟨rfl, fun e => by cases e <;> decide, fun c s h => ?_⟩
  obtain ⟨t, ht⟩ := engineStep_total h c
  refine ⟨t, ht, (engineStep_latchInv ht).err_iff, fun r hc => ?_, fun i hc => ?_⟩
  · rw [engineStep_of_error hc] at ht
    cases ht; rfl
  · exact exec_reports_firstError i s t (engineStep_of_ok hc s ▸ ht)

/-! The engine's move, the issue and the idle engine. -/

/-- Settles O11: the step is the engine step on the pending word, which decodes it. -/
theorem stepRunsDecodedCommand : Obligations.StepRunsDecodedCommand := fun _ _ _ hp he =>
  ⟨fun _ hc => (step_engine hp he).trans (engineStep_of_ok hc _),
    fun _ hc => (step_engine hp he).trans (engineStep_of_error hc _)⟩

/-- BUSY reads 1 in bit 0 of STATUS while a command is pending (10_state.md R35). -/
theorem statusWord_and_one_of_pending {s : State} (hp : s.pending ≠ none) : s.statusWord &&& 1 = 1 := by
  obtain ⟨fields, _, _⟩ := statusWordFields
  have hbusy : s.statusWord.getLsbD 0 = true := (fields s).1.2 hp
  exact (BitVec.and_one_eq_setWidth_ofBool_getLsbD ..).trans (by rw [hbusy]; rfl)

/-- Settles O22: the register at offset 0x00 is CMD, whose write is the issue. -/
theorem writeToCmdIssues : Obligations.WriteToCmdIssues := fun _ _ hp =>
  ⟨writesAs_of_reg .cmd hp rfl (by decide) rfl fun _ => rfl, statusWord_and_one_of_pending (Option.some_ne_none _)⟩

theorem engineTurn_of_idle {s : State} (hp : s.pending = none) : engineTurn s = .next s := by
  rw [engineTurn, hp]

theorem step_of_ended {s : State} (hp : s.pending = none) (ht : s.turns = []) : step s = .refused .noEnabledStep := by
  simp [step, ht, State.busy, hp]

theorem step_engineTurn {s : State} {rest : List Turn} (ht : s.turns = .engine :: rest) :
    step s = engineTurn { s with turns := rest } := by
  rw [step, ht]

/-- Settles O29: without a turn the run has ended, and the engine's turn passes. -/
theorem idleEngineHasNoStep : Obligations.IdleEngineHasNoStep := fun _ hp =>
  ⟨step_of_ended hp, fun _ ht => (step_engineTurn ht).trans (engineTurn_of_idle hp)⟩

end Sys2Proof.Machine

/-! The units beside each other: a command neither changes nor reads the state of a unit it does not belong to
(70_reset_and_hazards.md R257). -/

namespace Sys2Proof.Machine

/-- Settles O17: an error changes only STATUS, and completion keeps the command's frame. -/
theorem unitsChangeNoOtherUnit : Obligations.UnitsChangeNoOtherUnit := by
  intro i s t e
  obtain ⟨hsc, hmc, hhs⟩ := exec_other_units e
  refine ⟨hsc, hmc, hhs, ?_⟩
  obtain ⟨_, _, rfl⟩ | ⟨s', rfl, frame⟩ := exec_cases e
  · exact ⟨rfl, rfl, rfl, rfl, rfl, rfl⟩
  · exact ⟨frame.data, frame.ctrLo, frame.ctrHi, frame.fault, frame.turns, frame.rdata⟩

/-! Commands on a state whose other units are exchanged. -/

/-- The state with a function applied to each unit; `id` leaves a unit as it is, a constant function exchanges it. -/
def State.mapUnits (fsc : CipherUnit → CipherUnit) (fmc : MacUnit → MacUnit) (fhs : HashUnit → HashUnit)
    (s : State) : State :=
  { s with sc := fsc s.sc, mc := fmc s.mc, hs := fhs s.hs }

/-- An answer with a function applied to its next state. -/
def mapNext (f : State → State) : Result → Result
  | .next s => .next (f s)
  | .fault r => .fault r
  | .refused r => .refused r

theorem mapNext_ite {f : State → State} {p : Prop} [Decidable p] {x y x' y' : Result} (hx : x' = mapNext f x)
    (hy : y' = mapNext f y) : (if p then x' else y') = mapNext f (if p then x else y) := by
  rw [apply_ite (mapNext f), hx, hy]

/-- The guard of the block and key commands reads SC alone. -/
theorem mapNext_whenKeyed {s : State} {fmc : MacUnit → MacUnit} {fhs : HashUnit → HashUnit} {k k' : Vector Word 16 → Result}
    (hk : ∀ st, k' st = mapNext (State.mapUnits id fmc fhs) (k st)) :
    whenKeyed (s.mapUnits id fmc fhs) k' = mapNext (State.mapUnits id fmc fhs) (whenKeyed s k) := by
  have hsc : (s.mapUnits id fmc fhs).sc = s.sc := rfl
  rw [whenKeyed, whenKeyed, hsc]
  refine mapNext_ite rfl ?_
  cases s.sc.state with
  | none => rfl
  | some st => exact hk st

section MacGuards

variable {s : State} {fsc : CipherUnit → CipherUnit} {fhs : HashUnit → HashUnit}

/-- The guard of the message commands reads MC alone. -/
theorem mapNext_whenReady {k k' : ShaContext → Result} (hk : ∀ c, k' c = mapNext (State.mapUnits fsc id fhs) (k c)) :
    whenReady (s.mapUnits fsc id fhs) k' = mapNext (State.mapUnits fsc id fhs) (whenReady s k) := by
  have hmc : (s.mapUnits fsc id fhs).mc = s.mc := rfl
  rw [whenReady, whenReady, hmc]
  cases s.mc.phase with
  | unkeyed | finalized => rfl
  | ready =>
    cases s.mc.ictx with
    | none => rfl
    | some c => exact hk c

/-- The guard before the key bytes reads MC alone. -/
theorem mapNext_withKeyPad {k k' : Vector Byte 64 → Result}
    (hk : ∀ kp, k' kp = mapNext (State.mapUnits fsc id fhs) (k kp)) :
    withKeyPad (s.mapUnits fsc id fhs) k' = mapNext (State.mapUnits fsc id fhs) (withKeyPad s k) := by
  have hmc : (s.mapUnits fsc id fhs).mc = s.mc := rfl
  rw [withKeyPad, withKeyPad, hmc]
  cases s.mc.kpad with
  | none => rfl
  | some kp => exact hk kp

theorem mapNext_finishMac (c : ShaContext) :
    finishMac (s.mapUnits fsc id fhs) c = mapNext (State.mapUnits fsc id fhs) (finishMac s c) :=
  mapNext_withKeyPad fun _ => rfl

end MacGuards

/-- A command of SC does the same whatever MC and HS hold. -/
theorem exec_mapUnits_of_sc {i : Instr} (hu : i.unit = .sc) (s : State) (fmc : MacUnit → MacUnit)
    (fhs : HashUnit → HashUnit) :
    exec i (s.mapUnits id fmc fhs) = mapNext (State.mapUnits id fmc fhs) (exec i s) := by
  cases i with
  | scConfig r => exact mapNext_ite rfl rfl
  | scInit k n => exact mapNext_ite rfl (mapNext_ite rfl rfl)
  | scGetBlock | scGetNextBlock | scGetKey | scGetNonce => exact mapNext_whenKeyed fun _ => rfl
  | scReset => rfl
  | _ => cases hu

/-- A command of MC does the same whatever SC and HS hold. -/
theorem exec_mapUnits_of_mc {i : Instr} (hu : i.unit = .mc) (s : State) (fsc : CipherUnit → CipherUnit)
    (fhs : HashUnit → HashUnit) :
    exec i (s.mapUnits fsc id fhs) = mapNext (State.mapUnits fsc id fhs) (exec i s) := by
  cases i with
  | macKeyAppend n => exact mapNext_ite rfl (mapNext_ite rfl rfl)
  | macKeyCommit => rfl
  | macUpdate n => exact mapNext_ite rfl (mapNext_whenReady fun _ => mapNext_ite rfl rfl)
  | macFinalize => exact mapNext_whenReady mapNext_finishMac
  | macFinalizeData n => exact mapNext_ite rfl (mapNext_whenReady fun _ => mapNext_ite rfl (mapNext_finishMac _))
  | macReset => exact mapNext_ite rfl (mapNext_withKeyPad fun _ => rfl)
  | _ => cases hu

/-- A command of HS does the same whatever SC and MC hold. -/
theorem exec_mapUnits_of_hs {i : Instr} (hu : i.unit = .hs) (s : State) (fsc : CipherUnit → CipherUnit)
    (fmc : MacUnit → MacUnit) :
    exec i (s.mapUnits fsc fmc id) = mapNext (State.mapUnits fsc fmc id) (exec i s) := by
  cases i with
  | hashReset | hashFinal => rfl
  | hashUpdate n => exact mapNext_ite rfl (mapNext_ite rfl rfl)
  | _ => cases hu

/-- A command commutes with every change of the units that leaves its own unit as it is, its faults included. -/
theorem exec_mapUnits {i : Instr} {fsc : CipherUnit → CipherUnit} {fmc : MacUnit → MacUnit} {fhs : HashUnit → HashUnit}
    (hsc : i.unit = .sc → fsc = id) (hmc : i.unit = .mc → fmc = id) (hhs : i.unit = .hs → fhs = id) (s : State) :
    exec i (s.mapUnits fsc fmc fhs) = mapNext (State.mapUnits fsc fmc fhs) (exec i s) := by
  cases hu : i.unit with
  | sc => obtain rfl := hsc hu; exact exec_mapUnits_of_sc hu s fmc fhs
  | mc => obtain rfl := hmc hu; exact exec_mapUnits_of_mc hu s fsc fhs
  | hs => obtain rfl := hhs hu; exact exec_mapUnits_of_hs hu s fsc fmc

/-- Settles O18: exchanging a unit is a change of the units that leaves the two others as they are. -/
theorem unitsDoNotInfluenceEachOther : Obligations.UnitsDoNotInfluenceEachOther := by
  intro i s t e
  have commutes {fsc fmc fhs} (hsc : i.unit = .sc → fsc = id) (hmc : i.unit = .mc → fmc = id)
      (hhs : i.unit = .hs → fhs = id) : exec i (s.mapUnits fsc fmc fhs) = .next (t.mapUnits fsc fmc fhs) :=
    (exec_mapUnits hsc hmc hhs s).trans (congrArg (mapNext _) e)
  exact ⟨fun hu u => commutes (fsc := fun _ => u) (fun h => absurd h hu) (fun _ => rfl) (fun _ => rfl),
    fun hu u => commutes (fmc := fun _ => u) (fun _ => rfl) (fun h => absurd h hu) (fun _ => rfl),
    fun hu u => commutes (fhs := fun _ => u) (fun _ => rfl) (fun _ => rfl) (fun h => absurd h hu)⟩

end Sys2Proof.Machine

/-! The reset event and the host's accesses while a command is pending (70_reset_and_hazards.md R250, R254, R255). -/

namespace Sys2Proof.Machine

/-- The words of H0, in the order of their row (42_sha256.md R181). -/
theorem shaH0_toList : shaH0.toList = [0x6a09e667, 0xbb67ae85, 0x3c6ef372, 0xa54ff53a, 0x510e527f, 0x9b05688c, 0x1f83d9ab,
    0x5be0cd19] := by decide

theorem reset_statusWord : State.reset.statusWord = 0 := by
  obtain ⟨_, _, hreset⟩ := statusWordFields
  exact hreset

/-- The reset event leaves the values of the table of R250, whatever the state before it. -/
theorem resetEvent_hasResetValues (s : State) : s.resetEvent.HasResetValues where
  rounds := rfl
  keyed := rfl
  cipher_state := rfl
  block_counter := rfl
  phase := rfl
  kpad := rfl
  ictx := rfl
  ks := rfl
  hctx_H := shaH0_toList
  hctx_buf := rfl
  hctx_cnt := rfl
  pending := rfl
  done := rfl
  err := rfl
  err_code := rfl
  status := reset_statusWord
  ctr_lo := rfl
  ctr_hi := rfl
  data := Vector.toList_replicate
  out := Vector.toList_replicate
  out_len := rfl

/-- The platform's move is the reset event. -/
theorem step_reset {s : State} {rest : List Turn} (h : s.turns = .reset :: rest) :
    step s = .next (State.resetEvent { s with turns := rest }) := by
  rw [step, h]

/-- Settles O7: the state right after reset is what a reset event makes of it. -/
theorem resetEventGivesResetValues : Obligations.ResetEventGivesResetValues :=
  ⟨resetEvent_hasResetValues State.reset, rfl,
    fun _ _ h => ⟨_, step_reset h, resetEvent_hasResetValues _, rfl⟩⟩

/-- While BUSY = 1 an access other than the read of STATUS is a host hazard. -/
theorem accessFaults_hostHazard {s : State} (hp : s.pending ≠ none) {a : Access} (ha : a ≠ .read 0x04 4) :
    (s.accessFaults a).hostHazard = true := by
  have hbusy : s.busy = true := Option.isSome_iff_ne_none.2 hp
  have hread : a.isStatusRead = false := beq_eq_false_iff_ne.2 ha
  rw [State.accessFaults, hbusy, hread]; rfl

/-- Such an access changes FAULT alone, and FAULT holds F_HOST_HAZARD after it. -/
theorem hostAccess_hazard {s : State} (hp : s.pending ≠ none) {a : Access} (ha : a ≠ .read 0x04 4) :
    s.hostAccess a = s.addFaults (s.accessFaults a) ∧ (s.hostAccess a).fault.hostHazard = true := by
  have hhazard := accessFaults_hostHazard hp ha
  refine ⟨hostAccess_of_faults fun h => ?_, ?_⟩
  · rw [h] at hhazard; cases hhazard
  · rw [hostAccess_fault, FaultSet.union, hhazard, Bool.or_true]

/-- Settles O21: the step is the host access, a read of STATUS or a host hazard. -/
theorem busyAllowsOnlyStatusRead : Obligations.BusyAllowsOnlyStatusRead := by
  refine fun s a rest h hp => ⟨fun ha => step_statusRead (ha ▸ h), fun ha => ?_⟩
  obtain ⟨hadd, hhazard⟩ := hostAccess_hazard (s := { s with turns := rest }) hp ha
  exact ⟨_, step_host h, hhazard, by rw [hadd]; rfl⟩

/-- Any accesses while BUSY = 1 change FAULT and the value last read alone, and add F_HOST_HAZARD if one of them is no read of
STATUS. -/
theorem run_busyAccesses {rest : List Turn} (k : Nat) (accs : List Access) {s : State} (hp : s.pending ≠ none)
    (h : s.turns = accs.map .host ++ rest) :
    ∃ f r, core.run (accs.length + k) s = core.run k { s with turns := rest, fault := f, rdata := r } ∧
      f.hostHazard = (s.fault.hostHazard || accs.any (fun a => decide (a ≠ .read 0x04 4))) := by
  induction accs generalizing s with
  | nil =>
    have hs : rest = s.turns := h.symm
    exact ⟨s.fault, s.rdata, by rw [List.length_nil, Nat.zero_add, hs], by simp⟩
  | cons a accs ih =>
    obtain ⟨f, r, haccess, hf⟩ := hostAccess_busy (s := { s with turns := accs.map .host ++ rest }) hp a
    have hstep := (step_host h).trans (congrArg _ haccess)
    obtain ⟨f', r', hrun, hf'⟩ := ih
      (s := { s with turns := accs.map .host ++ rest, fault := f, rdata := r }) hp rfl
    refine ⟨f', r', ?_, ?_⟩
    · rw [List.length_cons, Nat.add_right_comm, run_succ hstep]; exact hrun
    · rw [hf', hf, Bool.or_assoc, List.any_cons]

/-- Settles O27: after the accesses the engine's move is the engine step on the pending word. -/
theorem hazardsDoNotReachTheCommand : Obligations.HazardsDoNotReachTheCommand := by
  intro accs s c rest hp h
  obtain ⟨f, r, hrun, hf⟩ := run_busyAccesses 1 accs (hp ▸ Option.some_ne_none c) h
  refine ⟨f, r, ?_, hf⟩
  rw [hrun, run_one]
  exact step_engine (s := { s with turns := .engine :: rest, fault := f, rdata := r }) hp (.inl rfl)

end Sys2Proof.Machine
